-- ==== Sys2Proof/Word.lean ====
section
/-! DEFINITION. The words of the VHSG codec core: one name per width of 00_scope.md R6 and R7. -/

namespace Sys2Proof

/-- A 32-bit word (WORD_W and DIFF_W, R6, R7): an accumulator, a Canonicalizer input, a Differ operand. -/
abbrev Word := BitVec 32

/-- An 8-bit character code (CHAR_W, R7). -/
abbrev CharCode := BitVec 8

/-- A 5-bit Symbol Index, 0..31 (IDX_W, R6). -/
abbrev SymIdx := BitVec 5

/-- A 6-bit shift cursor (CUR_W, R7, R22). -/
abbrev Cursor := BitVec 6

/-- A 16-bit command word (CMD_W, R7, R60). -/
abbrev CmdWord := BitVec 16

end Sys2Proof
end

