-- ==== Sys2Proof/Syntax.lean ====
section
/-! DEFINITION. The command set as syntax: the five commands of the opcode table, the fields of a command word, and
the assembler lines of 30_encoding.md section 6. -/

namespace Sys2Proof

/-- The commands, one constructor per row of spec/opcode_table.json (30_encoding.md R62). -/
inductive Instr where
  /-- NOP (R110). -/
  | nop
  /-- START: begin a run (R111). -/
  | start
  /-- PUSHC: encode one character and pack it (R112). Any 8-bit code is legal (R63). -/
  | pushc (ch : CharCode)
  /-- PUSHI: pack one Symbol Index (R113). -/
  | pushi (idx : SymIdx)
  /-- FINISH: end the run and commit it (R114). -/
  | finish
  deriving DecidableEq, Repr

/-- The mnemonic of a command, as spec/opcode_table.json spells it. -/
def Instr.mnemonic : Instr → String
  | .nop => "NOP"
  | .start => "START"
  | .pushc _ => "PUSHC"
  | .pushi _ => "PUSHI"
  | .finish => "FINISH"

/-- The three fields of a command word (R61). -/
structure Fields where
  /-- Bits 15:12, the opcode. -/
  op : BitVec 4
  /-- Bits 11:8, reserved. -/
  rsv : BitVec 4
  /-- Bits 7:0, the operand. -/
  arg : BitVec 8
  deriving DecidableEq, Repr

/-- A line of the assembler of R68 to R70: a command, a raw word, or a pseudo-command. Numbers are as they are
written, before any range check. -/
inductive Asm where
  /-- `NOP` -/
  | nop
  /-- `START` -/
  | start
  /-- `PUSHC 'c'` -/
  | pushcChar (c : Char)
  /-- `PUSHC 0xHH` -/
  | pushcCode (n : Nat)
  /-- `PUSHI n` -/
  | pushi (n : Nat)
  /-- `FINISH` -/
  | finish
  /-- `.word 0xHHHH` -/
  | word (n : Nat)
  /-- `PACK "s"` (R69) -/
  | pack (s : List Char)
  /-- `PACKI n0, n1, ..., nk` (R70) -/
  | packi (ns : List Nat)
  deriving DecidableEq, Repr

end Sys2Proof
end

