-- ==== Sys2Proof/WellFormed.lean ====
section
/-! DEFINITION. What a well-formed command word and a well-formed assembler line are. A term of `Instr` needs no
check of its own: its operands have exactly the widths of R63, so every term is a legal command. -/

namespace Sys2Proof

/-- The fields of a legal command word: the complement of the four kinds of illegal word of 30_encoding.md R64. -/
def Fields.legal (f : Fields) : Bool :=
  f.op.toNat ≤ 4 && f.rsv == 0 &&
    (if f.op = 2 then true
     else if f.op = 3 then f.arg.extractLsb' 5 3 == 0
     else f.arg == 0)

/-- A character the assembler writes in quotes: ASCII (93_implementation_defined.md G1; log 7). -/
def isAscii (c : Char) : Bool := c.toNat < 128

/-- The operand ranges of the assembler's lines (R68 to R70). `PACKI` names at least one index. -/
def Asm.wellFormed : Asm → Bool
  | .nop => true
  | .start => true
  | .pushcChar c => isAscii c
  | .pushcCode n => n < 256
  | .pushi n => n < 32
  | .finish => true
  | .word n => n < 65536
  | .pack s => s.all isAscii
  | .packi ns => !ns.isEmpty && ns.all (· < 32)

end Sys2Proof
end

