-- ==== Sys2Proof/Decode.lean ====
section
/-! DEFINITION. Command words: the total decoder of 30_encoding.md R60 to R66, its encoder, and the opcode table as
rows of match and mask. -/

namespace Sys2Proof

/-- Why a command word is illegal (R64). The name is for the reader: every illegal word has the same effect, ILL
(R164; log 13). -/
inductive IllegalWord where
  /-- OP is 0x5 to 0xF (R65). -/
  | reservedOp
  /-- RSV is not 0b0000 (R61). -/
  | reservedField
  /-- NOP, START or FINISH with ARG not 0x00 (R63). -/
  | strayArgument
  /-- PUSHI with bits 7:5 not 0b000 (R63). -/
  | strayIndexBits
  deriving DecidableEq, Repr

/-- The fields of a word (R61). -/
def Fields.ofWord (w : CmdWord) : Fields where
  op := w.extractLsb' 12 4
  rsv := w.extractLsb' 8 4
  arg := w.extractLsb' 0 8

/-- The word of three fields (R61). -/
def Fields.toWord (f : Fields) : CmdWord := f.op ++ f.rsv ++ f.arg

/-- The command of three fields: OP selects it, RSV and the unused bits of ARG are 0 (R61 to R65). -/
def decodeFields (f : Fields) : Except IllegalWord Instr :=
  if 4 < f.op.toNat then .error .reservedOp
  else if f.rsv ≠ 0 then .error .reservedField
  else if f.op = 2 then .ok (.pushc f.arg)
  else if f.op = 3 then
    if f.arg.extractLsb' 5 3 = 0 then .ok (.pushi (f.arg.extractLsb' 0 5))
    else .error .strayIndexBits
  else if f.arg ≠ 0 then .error .strayArgument
  else if f.op = 0 then .ok .nop
  else if f.op = 1 then .ok .start
  else .ok .finish

/-- The decoder: every 16-bit word is one legal command or illegal (R62 to R66). -/
def decode (w : CmdWord) : Except IllegalWord Instr := decodeFields (Fields.ofWord w)

/-- The fields of a command (R62, R63). -/
def Instr.fields : Instr → Fields
  | .nop => ⟨0x0, 0, 0⟩
  | .start => ⟨0x1, 0, 0⟩
  | .pushc ch => ⟨0x2, 0, ch⟩
  | .pushi idx => ⟨0x3, 0, idx.setWidth 8⟩
  | .finish => ⟨0x4, 0, 0⟩

/-- The encoder: the word of a command (R62, R63). -/
def encode (i : Instr) : CmdWord := i.fields.toWord

/-- One row of the opcode map (R62): a word belongs to the row exactly when `word & mask = match`. -/
structure OpcodeRow where
  /-- The mnemonic. -/
  mnemonic : String
  /-- The value of the fixed bits. -/
  fixed : CmdWord
  /-- Which bits are fixed. -/
  mask : CmdWord
  deriving DecidableEq, Repr

/-- The opcode map of R62. -/
def opcodeRows : List OpcodeRow :=
  [⟨"NOP", 0x0000, 0xFFFF⟩,
   ⟨"START", 0x1000, 0xFFFF⟩,
   ⟨"PUSHC", 0x2000, 0xFF00⟩,
   ⟨"PUSHI", 0x3000, 0xFFE0⟩,
   ⟨"FINISH", 0x4000, 0xFFFF⟩]

/-- The word belongs to the row (R62). -/
def OpcodeRow.matches (row : OpcodeRow) (w : CmdWord) : Bool := w &&& row.mask == row.fixed

/-- The command word that `nbits` bits numbered as the opcode table numbers them stand for; the bits above `nbits`
are 0 (log 11). -/
def tableWord (nbits w : Nat) : CmdWord := BitVec.ofNat 16 (w % 2 ^ nbits)

/-- The command the decoder reads from an opcode-table word. A command is one 16-bit word (R60), so a longer row
stands for none (log 11). -/
def decodeTableWord (nbits w : Nat) : Option Instr :=
  if 16 < nbits then none
  else
    match decode (tableWord nbits w) with
    | .ok i => some i
    | .error _ => none

end Sys2Proof
end

