-- ==== Sys2Proof/Config.lean ====
section
/-! DEFINITION. What the spec leaves open, as constants without a body: nothing in Lean can evaluate them, so a
claim about the model holds whatever they are. -/

namespace Sys2Proof

/-- CANON_SUFFIX, the two character codes the Canonicalizer appends: OPEN (00_scope.md R8, 42_canonicalizer.md R142;
log 4). -/
opaque Config.canonSuffix : CharCode × CharCode

/-- The register values before the first reset edge: unspecified (70_reset_and_hazards.md R182; log 5). The argument
numbers the register. -/
opaque Config.powerUpBits : Nat → Word

end Sys2Proof
end

