-- ==== Sys2Proof/Machine/State.lean ====
section
/-! DEFINITION. The state of the block as plain data (10_state.md), its value after reset, and the reasons a step can
stop. -/

namespace Sys2Proof.Machine

/-- A Packed Stream (00_scope.md R16): two accumulator words and their shift cursors. The block holds two, W_* and R_*
(R22, R23). -/
structure PackedStream where
  /-- The primary word. -/
  p : Word
  /-- The primary shift cursor. -/
  pc : Cursor
  /-- The secondary word. -/
  s : Word
  /-- The secondary shift cursor. -/
  sc : Cursor
  deriving DecidableEq, Repr

/-- The Packed Stream of no symbols: both words 0, both cursors 0 (41_bit_packer.md R128). -/
def PackedStream.empty : PackedStream := ⟨0, 0, 0, 0⟩

/-- MODE, the run state of the sequencer (R25). -/
inductive Mode where
  /-- 0b00: no run in progress. -/
  | idle
  /-- 0b01: a run is in progress. -/
  | active
  /-- 0b10: the run met an invalid symbol. -/
  | aborted
  /-- 0b11: no rule writes it; only a power-up state can hold it (R182; log 3). -/
  | reserved
  deriving DecidableEq, Repr

/-- The values of the input ports in one clock cycle (R21). The clock itself is the step. -/
structure PortIn where
  /-- `rst`: synchronous reset (R180). -/
  rst : Bool
  /-- `cmd_valid`: a command is offered this cycle (R67). -/
  cmdValid : Bool
  /-- `cmd_word`: the offered command (R60). -/
  cmdWord : CmdWord
  /-- `enc_char` (R83). -/
  encChar : CharCode
  /-- `dec_idx` (R85). -/
  decIdx : SymIdx
  /-- `canon_in` (R143). -/
  canonIn : Word
  /-- `diff_a`, the reference (R150). -/
  diffA : Word
  /-- `diff_b`, the candidate (R150). -/
  diffB : Word
  deriving DecidableEq, Repr

/-- Input ports with nothing offered and every data port 0 (DESIGN CHOICE, log 2). -/
def PortIn.quiet : PortIn := ⟨false, false, 0, 0, 0, 0, 0, 0⟩

/-- The state: every register of R22 to R26, the input ports of this cycle, and what the host drives afterwards. -/
structure State where
  /-- W_P, W_PC, W_S, W_SC: the working registers (R22). -/
  w : PackedStream
  /-- R_P, R_PC, R_S, R_SC: the result registers (R23). -/
  r : PackedStream
  /-- R_VALID (R24). -/
  rValid : Bool
  /-- R_CAP (R24). -/
  rCap : Bool
  /-- MODE (R25). -/
  mode : Mode
  /-- INV: an invalid character was pushed (R26). -/
  inv : Bool
  /-- CAP: a symbol was dropped (R26). -/
  cap : Bool
  /-- SEQ: a push or FINISH outside a run (R26). -/
  seq : Bool
  /-- ILL: an illegal word (R26). -/
  ill : Bool
  /-- The input ports in the current cycle (R21). -/
  pins : PortIn
  /-- The model's own field: the input ports in the cycles to come, the next cycle first (log 1). -/
  script : List PortIn
  deriving DecidableEq, Repr

/-- Every register at its reset value (R32, R180), the host driving nothing (log 2). -/
def State.reset : State where
  w := .empty
  r := .empty
  rValid := false
  rCap := false
  mode := .idle
  inv := false
  cap := false
  seq := false
  ill := false
  pins := .quiet
  script := []

/-- Why the machine stops. -/
inductive Fault where
  /-- A command whose rule reads MODE met MODE = 0b11. Raised by PUSHC, PUSHI and FINISH
  (93_implementation_defined.md U9 `stuck`; log 3). Safe: the spec gives no effect there and no reachable state has it. -/
  | reservedMode
  deriving DecidableEq, Repr

/-- Why an instruction has no meaning. -/
inductive Refusal where
  /-- The instruction is not modelled. Raised by no arm: every row of the opcode table has its meaning. Safe. -/
  | notModelled (mnemonic : String)
  deriving DecidableEq, Repr

end Sys2Proof.Machine
end

