-- ==== Sys2Proof/Machine/Flags.lean ====
section
/-! DEFINITION. The error flags and the status port (10_state.md R24 to R27, 60_exceptions.md). -/

namespace Sys2Proof.Machine

/-- MODE as its two bits (R25). -/
def Mode.toBits : Mode → BitVec 2
  | .idle => 0b00
  | .active => 0b01
  | .aborted => 0b10
  | .reserved => 0b11

/-- The mode two bits stand for (R25). -/
def Mode.ofBits (b : BitVec 2) : Mode :=
  if b = 0b00 then .idle
  else if b = 0b01 then .active
  else if b = 0b10 then .aborted
  else .reserved

/-- The error causes of R160. -/
inductive ErrorCause where
  /-- A character outside the Alphabet (R161). -/
  | inv
  /-- A symbol with no room (R162). -/
  | cap
  /-- A push or FINISH with no run in progress (R163). -/
  | seq
  /-- An illegal command word (R164). -/
  | ill
  deriving DecidableEq, Repr

/-- The code of a cause, which is the bit position of its flag in `status` (R160). -/
def ErrorCause.code : ErrorCause → Nat
  | .inv => 2
  | .cap => 3
  | .seq => 4
  | .ill => 5

/-- The sticky flag of a cause (R26, R160). -/
def errorFlag (e : ErrorCause) (s : State) : Bool :=
  match e with
  | .inv => s.inv
  | .cap => s.cap
  | .seq => s.seq
  | .ill => s.ill

/-- Reporting an error: the sticky flag is set, and an invalid symbol aborts the run (R160 to R164). Nothing is saved
and nothing is redirected (R167). -/
def reportError (e : ErrorCause) (s : State) : State :=
  match e with
  | .inv => { s with inv := true, mode := .aborted }
  | .cap => { s with cap := true }
  | .seq => { s with seq := true }
  | .ill => { s with ill := true }

/-- The four flags cleared, as START does (R111, R168). -/
def clearErrors (s : State) : State :=
  { s with inv := false, cap := false, seq := false, ill := false }

/-- The `status` output port, bit 7 first: R_CAP, R_VALID, ILL, SEQ, CAP, INV, MODE (R27). -/
def status (s : State) : BitVec 8 :=
  BitVec.ofBool s.rCap ++ BitVec.ofBool s.rValid ++ BitVec.ofBool s.ill ++ BitVec.ofBool s.seq ++
    BitVec.ofBool s.cap ++ BitVec.ofBool s.inv ++ s.mode.toBits

end Sys2Proof.Machine
end

