-- ==== Sys2Proof/Machine/SymbolTable.lean ====
section
/-! DEFINITION. The Symbol Table: a constant ROM of 32 character codes and its two lookups (40_symbol_table.md). -/

namespace Sys2Proof.Machine

/-- Indices 0..15 of the ROM, `BCDFGHJKLMNPQRST` (R80, R81): the symbols packed in 4 bits. -/
def symRomNarrow : List CharCode :=
  [0x42, 0x43, 0x44, 0x46, 0x47, 0x48, 0x4A, 0x4B,
   0x4C, 0x4D, 0x4E, 0x50, 0x51, 0x52, 0x53, 0x54]

/-- Indices 16..31 of the ROM, `AIUEO VWXYZ.,&<>` (R80, R81; space is index 21, 90_conflicts.md C1): the symbols
packed in 5 bits. -/
def symRomWide : List CharCode :=
  [0x41, 0x49, 0x55, 0x45, 0x4F, 0x20, 0x56, 0x57,
   0x58, 0x59, 0x5A, 0x2E, 0x2C, 0x26, 0x3C, 0x3E]

/-- The Symbol Table ROM, SYM[0] to SYM[31] (R81). -/
def symRom : List CharCode := symRomNarrow ++ symRomWide

/-- `decode(idx) = SYM[idx]` (R84). Every 5-bit index is in range. -/
def symDecode (idx : SymIdx) : CharCode := symRom.getD idx.toNat 0

/-- `encode(ch)`: whether the code is in the Alphabet, and its index, 0 when it is not (R82). -/
def symEncode (ch : CharCode) : Bool × SymIdx :=
  match symRom.findIdx? (· == ch) with
  | some i => (true, BitVec.ofNat 5 i)
  | none => (false, 0)

end Sys2Proof.Machine
end

