-- ==== Sys2Proof/Machine/Operands.lean ====
section
/-! DEFINITION. The two operand forms of a push (30_encoding.md R63): a Symbol Index used directly, and a character
code that goes through the Symbol Table; and the width class of an index. -/

namespace Sys2Proof.Machine

/-- `width(idx)`: 5 bits when bit 4 of the index is set, else 4 (41_bit_packer.md R100). -/
def width (idx : SymIdx) : Nat := if idx.getLsbD 4 then 5 else 4

/-- PUSHC's operand: the index of a character in the Alphabet, none for any other code (R63, R82). -/
def charOperand (ch : CharCode) : Option SymIdx :=
  match symEncode ch with
  | (true, idx) => some idx
  | (false, _) => none

end Sys2Proof.Machine
end

