-- ==== Sys2Proof/Machine/Ops.lean ====
section
/-! DEFINITION. The named operations over the registers: the pack step (41_bit_packer.md section 1), committing a run,
reset and power-up (70_reset_and_hazards.md), the command handshake (30_encoding.md R67) and the passing of a cycle. -/

namespace Sys2Proof.Machine

/-! ### The pack step -/

/-- The saturating left-shift amount of a symbol of width `w` at cursor `c`: `max(0, (32 - c) - w)` (R102). Subtraction
of natural numbers stops at 0. -/
def place (c w : Nat) : Nat := (32 - c) - w

/-- An accumulator word after a symbol is placed at cursor `c`: bits are OR'ed in, never cleared (R102, R103). -/
def placeSymbol (word : Word) (c : Nat) (idx : SymIdx) : Word :=
  word ||| (idx.setWidth 32 <<< place c (width idx))

/-- The secondary word after a spill of the low `ob` bits of the raw index to its top bits (R104). -/
def spillInto (word : Word) (ob : Nat) (idx : SymIdx) : Word :=
  word ||| (BitVec.ofNat 32 (idx.toNat % 2 ^ ob) <<< (32 - ob))

/-- Case A: the primary word takes the symbol, and spills when the cursor passes 32 (R101, R103, R104). -/
def PackedStream.pushPrimary (k : PackedStream) (idx : SymIdx) : PackedStream :=
  let pc' := k.pc.toNat + width idx
  let k' := { k with p := placeSymbol k.p k.pc.toNat idx, pc := BitVec.ofNat 6 pc' }
  if 32 < pc' then
    { k' with s := spillInto k.s (pc' - 32) idx, sc := BitVec.ofNat 6 (pc' - 32) }
  else k'

/-- Case B: the secondary word takes the symbol (R101, R105). -/
def PackedStream.pushSecondary (k : PackedStream) (idx : SymIdx) : PackedStream :=
  { k with
    s := placeSymbol k.s k.sc.toNat idx
    sc := BitVec.ofNat 6 (k.sc.toNat + width idx) }

/-- One symbol packed, or none when both accumulators are saturated, case C (R101, R107). A symbol that comes when the
primary is exactly full is case B and spills nothing, as R101, R103, R104 and R105 state and T-PACK row 13 and P6 show; the
derived rule R127 says otherwise of such a run (log 14). -/
def PackedStream.push? (k : PackedStream) (idx : SymIdx) : Option PackedStream :=
  if k.pc.toNat < 32 then some (k.pushPrimary idx)
  else if k.sc.toNat < 32 then some (k.pushSecondary idx)
  else none

/-- `pack_step(idx)`: the whole effect of packing one symbol on W_* and CAP (R101). -/
def packStep (idx : SymIdx) (s : State) : State :=
  match s.w.push? idx with
  | some k => { s with w := k }
  | none => reportError .cap s

/-- One symbol on a Packed Stream and its drop flag (R107, R123). -/
def packOne (acc : PackedStream × Bool) (idx : SymIdx) : PackedStream × Bool :=
  match acc.1.push? idx with
  | some k => (k, acc.2)
  | none => (acc.1, true)

/-- `pack(i_1, ..., i_n)`: the Packed Stream and drop flag of a sequence of symbols (R123). -/
def pack (idxs : List SymIdx) : PackedStream × Bool := idxs.foldl packOne (.empty, false)

/-! ### Runs -/

/-- Fresh working registers, a run in progress, no flag set (R111). -/
def beginRun (s : State) : State := { clearErrors s with w := .empty, mode := .active }

/-- The working registers become the result, with CAP as R_CAP (R114). -/
def commitRun (s : State) : State :=
  { s with r := s.w, rValid := true, rCap := s.cap, mode := .idle }

/-- The run ends with nothing committed (R114, ABORTED). -/
def dropRun (s : State) : State := { s with mode := .idle }

/-- A push of whichever operand form: SEQ outside a run, nothing in an aborted run, `body` in a run (R112, R113).
MODE = 0b11 stops (U9; log 3). -/
def pushWith (body : State → State) (s : State) : Host.Outcome State Fault Refusal :=
  match s.mode with
  | .idle => .next (reportError .seq s)
  | .aborted => .next s
  | .active => .next (body s)
  | .reserved => .fault .reservedMode

/-! ### Reset, power-up, handshake, cycles -/

/-- Every register at its reset value; the ports are the host's and stay (R180). -/
def resetRegisters (s : State) : State := { State.reset with pins := s.pins, script := s.script }

/-- The state at power-up, before the first reset edge: every register holds an unspecified value, MODE = 0b11
included (R182; log 5). The host's ports are as given. -/
def powerUp (pins : PortIn) (script : List PortIn) : State where
  w := ⟨Config.powerUpBits 0, (Config.powerUpBits 1).setWidth 6, Config.powerUpBits 2, (Config.powerUpBits 3).setWidth 6⟩
  r := ⟨Config.powerUpBits 4, (Config.powerUpBits 5).setWidth 6, Config.powerUpBits 6, (Config.powerUpBits 7).setWidth 6⟩
  rValid := (Config.powerUpBits 8).getLsbD 0
  rCap := (Config.powerUpBits 9).getLsbD 0
  mode := Mode.ofBits ((Config.powerUpBits 10).setWidth 2)
  inv := (Config.powerUpBits 11).getLsbD 0
  cap := (Config.powerUpBits 12).getLsbD 0
  seq := (Config.powerUpBits 13).getLsbD 0
  ill := (Config.powerUpBits 14).getLsbD 0
  pins := pins
  script := script

/-- `cmd_ready = ~rst` (R67). -/
def cmdReady (p : PortIn) : Bool := !p.rst

/-- The word the coming edge accepts: offered and ready (R67). -/
def acceptedWord (p : PortIn) : Option CmdWord :=
  if p.cmdValid && cmdReady p then some p.cmdWord else none

/-- The ports of the next cycle: what the host drives next; past the end of the script it offers nothing and keeps the
data ports (log 1). -/
def nextCycle (s : State) : State :=
  match s.script with
  | [] => { s with pins := { s.pins with rst := false, cmdValid := false } }
  | p :: rest => { s with pins := p, script := rest }

/-- The host drives these cycles, the first of them now (log 1). -/
def drive (cycles : List PortIn) (s : State) : State :=
  match cycles with
  | [] => s
  | p :: rest => { s with pins := p, script := rest }

/-- The host offers a command word in this cycle (R67; log 12). -/
def offer (w : CmdWord) (s : State) : State :=
  { s with pins := { s.pins with rst := false, cmdValid := true, cmdWord := w } }

end Sys2Proof.Machine
end

