-- ==== Sys2Proof/Machine/Packing.lean ====
section
/-! DEFINITION. The commands that pack a symbol: PUSHC and PUSHI. -/

namespace Sys2Proof.Machine

/-- PUSHC: encode the character; one outside the Alphabet aborts the run (41_bit_packer.md R112). -/
def execPushc (ch : CharCode) (s : State) : Host.Outcome State Fault Refusal :=
  pushWith (fun s =>
    match charOperand ch with
    | some idx => packStep idx s
    | none => reportError .inv s) s

/-- PUSHI: pack the index (R113). -/
def execPushi (idx : SymIdx) (s : State) : Host.Outcome State Fault Refusal := pushWith (packStep idx) s

end Sys2Proof.Machine
end

