-- ==== Sys2Proof/Machine/Sequencing.lean ====
section
/-! DEFINITION. The commands that sequence a run: NOP, START and FINISH, and the effect of an illegal word. -/

namespace Sys2Proof.Machine

/-- NOP: no register changes (41_bit_packer.md R110). -/
def execNop (s : State) : Host.Outcome State Fault Refusal := .next s

/-- START: fresh accumulators, in every MODE (R111). -/
def execStart (s : State) : Host.Outcome State Fault Refusal := .next (beginRun s)

/-- FINISH: commit the run, or leave an aborted one; SEQ when there is none (R114). MODE = 0b11 stops (U9; log 3). -/
def execFinish (s : State) : Host.Outcome State Fault Refusal :=
  match s.mode with
  | .idle => .next (reportError .seq s)
  | .aborted => .next (dropRun s)
  | .active => .next (commitRun s)
  | .reserved => .fault .reservedMode

/-- An accepted illegal word sets ILL and changes nothing else, in any MODE (60_exceptions.md R164). -/
def execIllegal (s : State) : Host.Outcome State Fault Refusal := .next (reportError .ill s)

end Sys2Proof.Machine
end

