-- ==== Sys2Proof/Machine/Dispatch.lean ====
section
/-! DEFINITION. One arm per command of the opcode table. -/

namespace Sys2Proof.Machine

def exec (i : Instr) (s : State) : Host.Outcome State Fault Refusal :=
  match i with
  | .nop => Sys2Proof.Machine.execNop s
  | .start => Sys2Proof.Machine.execStart s
  | .pushc ch => Sys2Proof.Machine.execPushc ch s
  | .pushi idx => Sys2Proof.Machine.execPushi idx s
  | .finish => Sys2Proof.Machine.execFinish s

end Sys2Proof.Machine
end

