-- ==== Sys2Proof/Machine/Step.lean ====
section
/-! DEFINITION. One step of the machine: one rising edge of `clk`. -/

namespace Sys2Proof.Machine

/-- One rising edge: reset has priority (70_reset_and_hazards.md R181); an accepted word is executed, or sets ILL when
it is illegal (30_encoding.md R64, R67); otherwise no register changes. The ports then hold the next cycle's values. -/
def step (s : State) : Host.Outcome State Fault Refusal :=
  if s.pins.rst then .next (resetRegisters (nextCycle s))
  else
    match acceptedWord s.pins with
    | none => .next (nextCycle s)
    | some w =>
      match decode w with
      | .ok i => exec i (nextCycle s)
      | .error _ => execIllegal (nextCycle s)

/-- The state in which the host offers the opcode-table word, so that the next step accepts exactly it (log 12). -/
def State.withFetchWord (s : State) (nbits w : Nat) : State := offer (tableWord nbits w) s

end Sys2Proof.Machine
end

