-- ==== Sys2Proof/Machine/Assembler.lean ====
section
/-! DEFINITION. The assembler of 30_encoding.md section 6: lines to command words, the pseudo-commands PACK and PACKI,
and the reading of a program's text (log 7, log 8). -/

namespace Sys2Proof.Machine

/-! ### Lines to words -/

/-- The code a quoted character stands for (R68, 40_symbol_table.md R81; log 7). -/
def charCode (c : Char) : CharCode := BitVec.ofNat 8 c.toNat

/-- The commands of one line, none for a raw word (R68 to R70). -/
def asmInstrs : Asm → List Instr
  | .nop => [.nop]
  | .start => [.start]
  | .pushcChar c => [.pushc (charCode c)]
  | .pushcCode n => [.pushc (BitVec.ofNat 8 n)]
  | .pushi n => [.pushi (BitVec.ofNat 5 n)]
  | .finish => [.finish]
  | .word _ => []
  | .pack s => .start :: s.map (fun c => .pushc (charCode c)) ++ [.finish]
  | .packi ns => .start :: ns.map (fun n => .pushi (BitVec.ofNat 5 n)) ++ [.finish]

/-- The words of one line (R68 to R70). -/
def asmWords : Asm → List CmdWord
  | .word n => [BitVec.ofNat 16 n]
  | line => (asmInstrs line).map encode

/-! ### Text to lines -/

/-- White space within a line (DESIGN CHOICE, log 8). -/
def isBlank (c : Char) : Bool := c == ' ' || c == '\t' || c == '\r'

/-- A line without its leading blanks. -/
def dropBlanks : List Char → List Char
  | [] => []
  | c :: cs => if isBlank c then dropBlanks cs else c :: cs

/-- A line without its trailing blanks. -/
def trimBlanks (cs : List Char) : List Char := (dropBlanks (dropBlanks cs).reverse).reverse

/-- What follows a quote makes it the first of a quoted character: any character and a closing quote. -/
def closesQuote : List Char → Bool
  | _ :: '\'' :: _ => true
  | _ => false

/-- A line up to its comment: `;` to the end of the line (R68). DESIGN CHOICE (log 8): a `;` in a quoted character or
between double quotes is text, and a quoted character is the three characters `'c'` whatever c is, a quote or a
semicolon among them. `inString` says that a double quote is open; `keep` counts the characters of a quoted character
still to come. -/
def stripComment (inString : Bool) (keep : Nat) : List Char → List Char
  | [] => []
  | c :: cs =>
    match keep with
    | n + 1 => c :: stripComment inString n cs
    | 0 =>
      if inString then c :: stripComment (c != '"') 0 cs
      else if c == ';' then []
      else if c == '\'' && closesQuote cs then c :: stripComment false 2 cs
      else c :: stripComment (c == '"') 0 cs

/-- The characters up to a separator, and what follows it. -/
def splitAtFirst (p : Char → Bool) : List Char → List Char × List Char
  | [] => ([], [])
  | c :: cs =>
    if p c then ([], cs)
    else
      let (a, b) := splitAtFirst p cs
      (c :: a, b)

/-- The pieces of a list between separators. -/
def splitAll (p : Char → Bool) : List Char → List (List Char)
  | [] => [[]]
  | c :: cs =>
    match splitAll p cs with
    | [] => [[c]]
    | a :: rest => if p c then [] :: a :: rest else (c :: a) :: rest

/-- The value of a digit below the base, of either case (DESIGN CHOICE, log 8). -/
def digitValue (base : Nat) (c : Char) : Option Nat :=
  let v :=
    if '0' ≤ c ∧ c ≤ '9' then some (c.toNat - '0'.toNat)
    else if 'a' ≤ c ∧ c ≤ 'f' then some (c.toNat - 'a'.toNat + 10)
    else if 'A' ≤ c ∧ c ≤ 'F' then some (c.toNat - 'A'.toNat + 10)
    else none
  v.filter (· < base)

/-- The digits of a number, most significant first, onto a value already read. -/
def readDigits (base : Nat) (acc : Nat) : List Char → Option Nat
  | [] => some acc
  | c :: cs => (digitValue base c).bind fun d => readDigits base (acc * base + d) cs

/-- A number: decimal, or hexadecimal after `0x` (R68). DESIGN CHOICE (log 8): any number of digits, leading zeros among
them; the range is `Asm.wellFormed`'s. -/
def readNumber : List Char → Option Nat
  | [] => none
  | '0' :: 'x' :: [] => none
  | '0' :: 'x' :: cs => readDigits 16 0 cs
  | cs => readDigits 10 0 cs

/-- A number written in hexadecimal with `0x`, PUSHC's code and `.word` (R68). R68 writes `0xHH` and `0xHHHH`; DESIGN
CHOICE (log 8): any number of digits from one up is read, and only the range is checked, by `Asm.wellFormed`. -/
def readHex : List Char → Option Nat
  | '0' :: 'x' :: c :: cs => readDigits 16 0 (c :: cs)
  | _ => none

/-- PUSHC's operand: a quoted character or a hexadecimal code (R68). -/
def readCharOperand : List Char → Option Asm
  | ['\'', c, '\''] => some (.pushcChar c)
  | cs => (readHex cs).map .pushcCode

/-- PACK's operand: the characters between double quotes (R69). DESIGN CHOICE (log 8): R69 gives no way to write a double
quote inside the string, and a string that holds one is not read. -/
def readString : List Char → Option Asm
  | '"' :: cs =>
    match cs.reverse with
    | '"' :: body => if body.contains '"' then none else some (.pack body.reverse)
    | _ => none
  | _ => none

/-- PACKI's operand: numbers separated by commas (R70). DESIGN CHOICE (log 8): each is written as PUSHI's number, with
blanks around it or none. -/
def readIndices (cs : List Char) : Option Asm :=
  ((splitAll (· == ',') cs).mapM fun n => readNumber (trimBlanks n)).map .packi

/-- The command a mnemonic and its operand text make, mnemonics in upper case (R68). -/
def readCommand (mnemonic operand : List Char) : Option Asm :=
  if mnemonic = ['N', 'O', 'P'] then if operand = [] then some .nop else none
  else if mnemonic = ['S', 'T', 'A', 'R', 'T'] then if operand = [] then some .start else none
  else if mnemonic = ['F', 'I', 'N', 'I', 'S', 'H'] then if operand = [] then some .finish else none
  else if mnemonic = ['P', 'U', 'S', 'H', 'C'] then readCharOperand operand
  else if mnemonic = ['P', 'U', 'S', 'H', 'I'] then (readNumber operand).map .pushi
  else if mnemonic = ['P', 'A', 'C', 'K'] then readString operand
  else if mnemonic = ['P', 'A', 'C', 'K', 'I'] then readIndices operand
  else if mnemonic = ['.', 'w', 'o', 'r', 'd'] then (readHex operand).map .word
  else none

/-- One line of text (its layout is a DESIGN CHOICE where R68 leaves it open, log 8): nothing for a blank or comment line, and no reading for a line that is no well-formed command
(R68). -/
def readLine (cs : List Char) : Option (List Asm) :=
  match trimBlanks (stripComment false 0 cs) with
  | [] => some []
  | body =>
    let (mnemonic, rest) := splitAtFirst isBlank body
    match readCommand mnemonic (dropBlanks rest) with
    | some line => if line.wellFormed then some [line] else none
    | none => none

/-- A program's text, one command a line, as its lines (R68). -/
def readProgram (cs : List Char) : Option (List Asm) :=
  ((splitAll (· == '\n') cs).mapM readLine).map List.flatten

/-- A program's text as the command words it stands for, in order (R68 to R70). -/
def assemble (cs : List Char) : Option (List CmdWord) :=
  (readProgram cs).map fun lines => (lines.map asmWords).flatten

end Sys2Proof.Machine
end

