-- ==== Sys2Proof/Machine/Canonicalizer.lean ====
section
/-! DEFINITION. The Canonicalizer: eight nibble lanes through the Symbol Table, and the fixed suffix
(42_canonicalizer.md). -/

namespace Sys2Proof.Machine

/-- `nib_k = x[31-4k : 28-4k]`, nibble 0 the most significant (R140). -/
def nibble (x : Word) (k : Nat) : BitVec 4 := x.extractLsb' (28 - 4 * k) 4

/-- Character k of the canonical string, k in 0..7: `SYM[nib_k]` (R141). -/
def canonChar (x : Word) (k : Nat) : CharCode := symDecode ((nibble x k).setWidth 5)

/-- `canonicalize(x)`: eight symbols and the two codes of CANON_SUFFIX (R142, R143). -/
def canonicalize (x : Word) : List CharCode :=
  (List.range 8).map (canonChar x) ++ [Config.canonSuffix.1, Config.canonSuffix.2]

/-- Ten character codes on 80 bits, character 0 in the highest 8 (20_memory.md R53, R143). -/
def packChars (cs : List CharCode) : BitVec 80 :=
  cs.foldl (fun acc c => acc <<< 8 ||| c.setWidth 80) 0

/-- The value of `canon_out` for `canon_in = x` (R143). -/
def canonOut (x : Word) : BitVec 80 := packChars (canonicalize x)

end Sys2Proof.Machine
end

