-- ==== Sys2Proof/Machine/Differ.lean ====
section
/-! DEFINITION. The Bit Differ (43_bit_differ.md) and binary-digit strings (00_scope.md R15). -/

namespace Sys2Proof.Machine

/-- `diff_match`: bit j is 1 when the operands agree there (R151). -/
def diffMatch (a b : Word) : Word := ~~~(a ^^^ b)

/-- `diff_xor = a ^ b` (R152). -/
def diffXor (a b : Word) : Word := a ^^^ b

/-- `diff_eq`: no position differs (R153). -/
def diffEq (a b : Word) : Bool := diffXor a b == 0

/-- A binary digit as the character that writes it. -/
def digit (b : Bool) : Char := if b then '1' else '0'

/-- The binary-digit string of a word: position k is the digit of bit 31 - k (R15). -/
def binaryString (x : Word) : List Char := (List.range 32).map fun k => digit (x.getLsbD (31 - k))

/-- The Bit Diff Result: for each position, the candidate's digit and whether the operands match (R154). -/
def diffPairs (a b : Word) : List (Char × Bool) :=
  (List.range 32).map fun k => (digit (b.getLsbD (31 - k)), (diffMatch a b).getLsbD (31 - k))

end Sys2Proof.Machine
end

