-- ==== Sys2Proof/Machine/Ports.lean ====
section
/-! DEFINITION. The output ports of 10_state.md R21 as a function of the state, and the report outputs of
41_bit_packer.md section 3. -/

namespace Sys2Proof.Machine

/-- `shifted(S, SC)`: the secondary word right-justified; the amount `max(0, 32 - SC)` never falls below 0 (R120). -/
def shifted (word : Word) (sc : Cursor) : Word := word >>> (32 - sc.toNat)

/-- `res_s_shifted` (R120). -/
def resSShifted (s : State) : Word := shifted s.r.s s.r.sc

/-- `res_xor = R_P ^ shifted(R_S, R_SC)` (R121). -/
def resXor (s : State) : Word := s.r.p ^^^ resSShifted s

/-- The three strings of `pack_and_report` (R122). -/
structure Report where
  /-- `primary_binary`: the string of res_p. -/
  primaryBinary : List Char
  /-- `secondary_shifted_binary`: the string of res_s_shifted. -/
  secondaryShiftedBinary : List Char
  /-- `xor_binary`: the string of res_xor. -/
  xorBinary : List Char
  deriving DecidableEq, Repr

/-- The report of the committed run (R122). -/
def report (s : State) : Report :=
  ⟨binaryString s.r.p, binaryString (resSShifted s), binaryString (resXor s)⟩

/-- The values of the output ports in one cycle (R21). -/
structure PortOut where
  /-- `cmd_ready` (R67). -/
  cmdReady : Bool
  /-- `status` (R27). -/
  status : BitVec 8
  /-- `res_p` (R23). -/
  resP : Word
  /-- `res_pc` (R23). -/
  resPc : Cursor
  /-- `res_s` (R23). -/
  resS : Word
  /-- `res_sc` (R23). -/
  resSc : Cursor
  /-- `res_s_shifted` (R120). -/
  resSShifted : Word
  /-- `res_xor` (R121). -/
  resXor : Word
  /-- `res_canon` (R144). -/
  resCanon : BitVec 80
  /-- `w_p` (R30). -/
  wP : Word
  /-- `w_pc` (R30). -/
  wPc : Cursor
  /-- `w_s` (R30). -/
  wS : Word
  /-- `w_sc` (R30). -/
  wSc : Cursor
  /-- `enc_valid` (R83). -/
  encValid : Bool
  /-- `enc_idx` (R83). -/
  encIdx : SymIdx
  /-- `dec_char` (R85). -/
  decChar : CharCode
  /-- `canon_out` (R143). -/
  canonOut : BitVec 80
  /-- `diff_match` (R151). -/
  diffMatch : Word
  /-- `diff_xor` (R152). -/
  diffXor : Word
  /-- `diff_eq` (R153). -/
  diffEq : Bool
  deriving DecidableEq, Repr

/-- The output ports in the cycle of the state: what stands before the coming edge (R21, R186). -/
def outputs (s : State) : PortOut where
  cmdReady := Sys2Proof.Machine.cmdReady s.pins
  status := Sys2Proof.Machine.status s
  resP := s.r.p
  resPc := s.r.pc
  resS := s.r.s
  resSc := s.r.sc
  resSShifted := Sys2Proof.Machine.resSShifted s
  resXor := Sys2Proof.Machine.resXor s
  resCanon := Sys2Proof.Machine.canonOut s.r.p
  wP := s.w.p
  wPc := s.w.pc
  wS := s.w.s
  wSc := s.w.sc
  encValid := (symEncode s.pins.encChar).1
  encIdx := (symEncode s.pins.encChar).2
  decChar := symDecode s.pins.decIdx
  canonOut := Sys2Proof.Machine.canonOut s.pins.canonIn
  diffMatch := Sys2Proof.Machine.diffMatch s.pins.diffA s.pins.diffB
  diffXor := Sys2Proof.Machine.diffXor s.pins.diffA s.pins.diffB
  diffEq := Sys2Proof.Machine.diffEq s.pins.diffA s.pins.diffB

end Sys2Proof.Machine
end

