-- ==== Sys2Proof/Safety.lean ====
section
/-! DEFINITION. What a consistent state is, in the terms the statements use: the cursor invariants of
41_bit_packer.md R106 and the relations among MODE, the flags and the registers that the commands keep. -/

namespace Sys2Proof.Machine

/-- The invariants of a Packed Stream (R106). -/
structure PackedStream.WellPacked (k : PackedStream) : Prop where
  /-- R106 (a), primary. -/
  pc_le : k.pc.toNat ≤ 36
  /-- R106 (a), secondary. -/
  sc_le : k.sc.toNat ≤ 36
  /-- R106 (b), (d): the secondary is not written until the primary is saturated. -/
  secondary_unused : k.pc.toNat < 32 → k.s = 0 ∧ k.sc = 0
  /-- R106 (c). -/
  secondary_zero : k.sc = 0 → k.s = 0
  /-- A spill writes as many bits of the secondary as the primary cursor stands above 32 (R104). -/
  spill_counted : k.pc.toNat ≤ 32 + k.sc.toNat
  /-- The bits of the primary below its cursor are unwritten (R102). -/
  primary_free : ∀ j, j < 32 - k.pc.toNat → k.p.getLsbD j = false
  /-- The bits of the secondary below its cursor are unwritten (R102, R105). -/
  secondary_free : ∀ j, j < 32 - k.sc.toNat → k.s.getLsbD j = false

/-- Both accumulators are saturated (00_scope.md R16, R107). -/
def PackedStream.Full (k : PackedStream) : Prop := 32 ≤ k.pc.toNat ∧ 32 ≤ k.sc.toNat

/-- The invariant of the block after reset. -/
structure State.Consistent (s : State) : Prop where
  /-- MODE is never 0b11 (10_state.md R25). -/
  mode_legal : s.mode ≠ .reserved
  /-- R106 for W_*. -/
  working : s.w.WellPacked
  /-- R106 for R_*. -/
  result : s.r.WellPacked
  /-- Before the first commit the result is the reset value (R24, R32). -/
  unset : s.rValid = false → s.r = .empty ∧ s.rCap = false
  /-- A run in progress has met no invalid symbol (R112). -/
  active_valid : s.mode = .active → s.inv = false
  /-- An aborted run has met one (R112). -/
  aborted_invalid : s.mode = .aborted → s.inv = true
  /-- SEQ is set only in IDLE and START clears it (R111, R163). -/
  seq_idle : s.mode ≠ .idle → s.seq = false
  /-- CAP is set only when both accumulators are saturated (R162). -/
  cap_full : s.cap = true → s.w.Full
  /-- R_CAP says so of the committed run (R24). -/
  rCap_full : s.rCap = true → s.r.Full

/-- The register part of a state: everything but the host's ports. Two states with equal registers differ at most in
what the host drives. -/
def SameRegisters (s t : State) : Prop :=
  s.w = t.w ∧ s.r = t.r ∧ s.rValid = t.rValid ∧ s.rCap = t.rCap ∧ s.mode = t.mode ∧
    s.inv = t.inv ∧ s.cap = t.cap ∧ s.seq = t.seq ∧ s.ill = t.ill

/-- A cycle in which the host offers this command word (R67). -/
def PortIn.Offers (p : PortIn) (w : CmdWord) : Prop := p.rst = false ∧ p.cmdValid = true ∧ p.cmdWord = w

/-- The words the host has accepted over these cycles, NOP left out (R67, R123). -/
def acceptedWords (cycles : List PortIn) : List CmdWord :=
  (cycles.filterMap acceptedWord).filter (· ≠ 0x0000)

/-- Cycles in which the host offers these words, one a cycle (R67, R185). -/
def offers (words : List CmdWord) : List PortIn :=
  words.map fun w => { PortIn.quiet with cmdValid := true, cmdWord := w }

/-- The words of the run that packs these indices: START, a PUSHI each, FINISH (R70, R123). -/
def runWords (idxs : List SymIdx) : List CmdWord :=
  encode .start :: idxs.map (fun i => encode (.pushi i)) ++ [encode .finish]

/-- What the machine answers after the host has offered that run, one command a cycle (R123, R189). -/
def runOf (idxs : List SymIdx) (s : State) : Host.Outcome State Fault Refusal :=
  Host.Core.run Sys2Proof.core (idxs.length + 2) (drive (offers (runWords idxs)) s)

/-- The total width of a sequence of symbols (R100). -/
def totalWidth (idxs : List SymIdx) : Nat := (idxs.map width).sum

end Sys2Proof.Machine
end

