-- ==== Sys2Proof/Certificates/Slice0/Obligations.lean ====
section
/-! DEFINITION. The statements about the model, for the provers. `{ s with w := t.w }` and its like say the frame: a
state equal to it keeps every other register of s, and the ports. -/

open Sys2Proof Sys2Proof.Machine

/-! ### Command words -/

/-- Decoding the word of a command gives the command back, with every operand at every value (30_encoding.md R61 to
R63, R66). -/
def Obligations.DecodeOfEncodeIsTheCommand : Prop :=
  ∀ i : Instr, decode (encode i) = .ok i

/-- A word that decodes to a command is that command's word: each command has one word (R62, R66). -/
def Obligations.EncodeOfDecodeIsTheWord : Prop :=
  ∀ (w : CmdWord) (i : Instr), decode w = .ok i → encode i = w

/-- R62: a word is a command of a row exactly when `w & mask = match` for the row, the rows written out; the rows do
not overlap. -/
def Obligations.WordsDecodeByMatchAndMask : Prop :=
  (∀ w : CmdWord,
    (decode w = .ok .nop ↔ w &&& 0xFFFF = 0x0000) ∧
    (decode w = .ok .start ↔ w &&& 0xFFFF = 0x1000) ∧
    ((∃ ch, decode w = .ok (.pushc ch)) ↔ w &&& 0xFF00 = 0x2000) ∧
    ((∃ idx, decode w = .ok (.pushi idx)) ↔ w &&& 0xFFE0 = 0x3000) ∧
    (decode w = .ok .finish ↔ w &&& 0xFFFF = 0x4000)) ∧
  (∀ w : CmdWord, ∀ row ∈ opcodeRows, ∀ row' ∈ opcodeRows,
    row.matches w = true → row'.matches w = true → row = row')

/-- R64: the illegal words, and what an accepted one does: ILL is set and every other register keeps its value, in
every MODE. -/
def Obligations.IllegalWordSetsOnlyIll : Prop :=
  (∀ w : CmdWord, (∃ e, decode w = .error e) ↔
    (5 ≤ (w.extractLsb' 12 4).toNat ∨ w.extractLsb' 8 4 ≠ 0 ∨
      ((w.extractLsb' 12 4 = 0x0 ∨ w.extractLsb' 12 4 = 0x1 ∨ w.extractLsb' 12 4 = 0x4) ∧ w.extractLsb' 0 8 ≠ 0x00) ∨
      (w.extractLsb' 12 4 = 0x3 ∧ w.extractLsb' 5 3 ≠ 0))) ∧
  (∀ (s : State) (w : CmdWord), s.pins.Offers w → (∃ e, decode w = .error e) →
    ∃ t, step s = .next t ∧ t.ill = true ∧ t.mode = s.mode ∧ t.w = s.w ∧ t.r = s.r ∧ t.rValid = s.rValid ∧
      t.rCap = s.rCap ∧ t.inv = s.inv ∧ t.cap = s.cap ∧ t.seq = s.seq)

/-- What the spec derives as R65: opcodes 0x5 to 0xF are illegal, and exactly 291 words are legal. -/
def Obligations.LegalWordsAreTwoHundredNinetyOne : Prop :=
  (∀ w : CmdWord, 5 ≤ (w.extractLsb' 12 4).toNat → ∃ e, decode w = .error e) ∧
  (∃ legal : List CmdWord, legal.Nodup ∧ legal.length = 256 + 32 + 3 ∧
    ∀ w, w ∈ legal ↔ ∃ i, decode w = .ok i)

/-- Words written out from the encodings of R62 and R68 decode to their commands, and two words that R64 calls illegal
are answered by an error. Which error names them, reservedOp and strayIndexBits, is the model's own choice (log 13,
DESIGN CHOICE): the spec gives illegal words no names. -/
def Obligations.SpecWordsDecode : Prop :=
  decode 0x0000 = .ok .nop ∧ decode 0x1000 = .ok .start ∧ decode 0x2047 = .ok (.pushc 0x47) ∧
  decode 0x301F = .ok (.pushi 31) ∧ decode 0x4000 = .ok .finish ∧
  decode 0x5000 = .error .reservedOp ∧ decode 0x3020 = .error .strayIndexBits

/-- R69, R70: PACK and PACKI expand to START, a push for each operand in order, FINISH. -/
def Obligations.PackLinesExpandToRuns : Prop :=
  (∀ str : List Char, (asmWords (.pack str)).length = str.length + 2 ∧
    (asmWords (.pack str)).map decode =
      .ok .start :: str.map (fun c => .ok (.pushc (charCode c))) ++ [.ok .finish]) ∧
  (∀ ns : List Nat, (Asm.packi ns).wellFormed = true →
    ∃ idxs : List SymIdx, idxs.map BitVec.toNat = ns ∧
      (asmWords (.packi ns)).map decode = .ok .start :: idxs.map (fun i => .ok (.pushi i)) ++ [.ok .finish])

/-! ### The step and reset -/

/-- A step runs the decoded command: it is `exec` of the command the accepted word decodes to, on the same registers
(R56, R67), with the ports of the next cycle. The two clauses on those ports, that they are the head of `script` and
that past its end nothing is offered, are the model's own choice (log 1, DESIGN CHOICE): the spec does not say what the
host drives next. -/
def Obligations.StepRunsTheDecodedCommand : Prop :=
  ∀ (s : State) (w : CmdWord) (i : Instr), s.pins.Offers w → decode w = .ok i →
    step s = exec i (nextCycle s) ∧ SameRegisters (nextCycle s) s ∧
    (∀ p rest, s.script = p :: rest → (nextCycle s).pins = p ∧ (nextCycle s).script = rest) ∧
    (s.script = [] → nextCycle s = { s with pins := { s.pins with rst := false, cmdValid := false } })

/-- R67: cmd_ready is ~rst; a word is executed exactly when it is offered and the block is ready; a word offered in
reset is discarded; without an accepted word no register changes; no edge stalls. -/
def Obligations.CommandAcceptedExactlyWhenValidAndReady : Prop :=
  ∀ s : State,
    (outputs s).cmdReady = !s.pins.rst ∧
    (s.pins.rst = true → ∃ t, step s = .next t ∧ SameRegisters t State.reset) ∧
    (s.pins.cmdValid = false → s.pins.rst = false → ∃ t, step s = .next t ∧ SameRegisters t s) ∧
    (s.pins.cmdValid = true → (outputs s).cmdReady = true →
      (∀ i, decode s.pins.cmdWord = .ok i → step s = exec i (nextCycle s)) ∧
      (∀ e, decode s.pins.cmdWord = .error e → ∃ t, step s = .next t ∧ SameRegisters t { s with ill := true }))

/-- R180: an edge with rst = 1 gives every register its reset value, from any state, whatever is offered. -/
def Obligations.ResetEdgeSetsEveryRegister : Prop :=
  ∀ s : State, s.pins.rst = true → ∃ t, step s = .next t ∧
    t.w.p = 0 ∧ t.w.pc = 0 ∧ t.w.s = 0 ∧ t.w.sc = 0 ∧ t.r.p = 0 ∧ t.r.pc = 0 ∧ t.r.s = 0 ∧ t.r.sc = 0 ∧
    t.rValid = false ∧ t.rCap = false ∧ t.mode = .idle ∧
    t.inv = false ∧ t.cap = false ∧ t.seq = false ∧ t.ill = false

/-- R183: after reset MODE is IDLE, no flag is set, R_VALID is 0, and the status port reads 0. -/
def Obligations.ResetStateIsIdleAndUnflagged : Prop :=
  State.reset.mode = .idle ∧ (∀ e, errorFlag e State.reset = false) ∧ State.reset.rValid = false ∧
  (outputs State.reset).status = 0x00 ∧ State.reset.r = (pack []).1 ∧ State.reset.w = (pack []).1

/-! ### Commands -/

/-- R110: NOP, word 0x0000, completes in every state and changes nothing, and every other word with OP = 0x0 is illegal. -/
def Obligations.NopChangesNothing : Prop :=
  encode .nop = 0x0000 ∧ (∀ s : State, exec .nop s = .next s) ∧
  (∀ w : CmdWord, w.extractLsb' 12 4 = 0x0 → w ≠ 0x0000 → ∃ e, decode w = .error e)

/-- R111: START, word 0x1000, completes in every state with fresh accumulators, MODE ACTIVE and no flag, and keeps the
result. -/
def Obligations.StartBeginsAFreshRun : Prop :=
  encode .start = 0x1000 ∧ ∀ s : State, ∃ t, exec .start s = .next t ∧
    t.w.p = 0 ∧ t.w.pc = 0 ∧ t.w.s = 0 ∧ t.w.sc = 0 ∧ t.mode = .active ∧
    t.inv = false ∧ t.cap = false ∧ t.seq = false ∧ t.ill = false ∧
    t.r = s.r ∧ t.rValid = s.rValid ∧ t.rCap = s.rCap ∧ t.pins = s.pins ∧ t.script = s.script

/-- R112: PUSHC, its word, and its effect in each MODE; `packStep` is the pack step of R101. -/
def Obligations.PushcByMode : Prop :=
  ∀ (ch : CharCode) (s : State),
    encode (.pushc ch) = 0x2000 ||| ch.setWidth 16 ∧
    (s.mode = .idle → exec (.pushc ch) s = .next { s with seq := true }) ∧
    (s.mode = .aborted → exec (.pushc ch) s = .next s) ∧
    (s.mode = .active → (symEncode ch).1 = false →
      exec (.pushc ch) s = .next { s with inv := true, mode := .aborted }) ∧
    (s.mode = .active → ∀ idx, symEncode ch = (true, idx) → exec (.pushc ch) s = .next (packStep idx s))

/-- R113: PUSHI, its word, and its effect in each MODE; it never raises INV. -/
def Obligations.PushiByMode : Prop :=
  ∀ (idx : SymIdx) (s : State),
    encode (.pushi idx) = 0x3000 ||| idx.setWidth 16 ∧
    (s.mode = .idle → exec (.pushi idx) s = .next { s with seq := true }) ∧
    (s.mode = .aborted → exec (.pushi idx) s = .next s) ∧
    (s.mode = .active → exec (.pushi idx) s = .next (packStep idx s) ∧ (packStep idx s).inv = s.inv)

/-- R114: FINISH, word 0x4000, and its effect in each MODE. -/
def Obligations.FinishByMode : Prop :=
  encode .finish = 0x4000 ∧ ∀ s : State,
    (s.mode = .idle → exec .finish s = .next { s with seq := true }) ∧
    (s.mode = .aborted → exec .finish s = .next { s with mode := .idle }) ∧
    (s.mode = .active → ∃ t, exec .finish s = .next t ∧ t.r.p = s.w.p ∧ t.r.pc = s.w.pc ∧ t.r.s = s.w.s ∧
      t.r.sc = s.w.sc ∧ t = { s with r := t.r, rValid := true, rCap := s.cap, mode := .idle })

/-- R102, R103: a symbol that fits in the primary stands directly below the bits already written, bit by bit; the
cursor advances by its width and nothing else changes. -/
def Obligations.FittingSymbolStandsBelowTheWrittenBits : Prop :=
  ∀ (idx : SymIdx) (s : State), s.mode = .active → s.w.pc.toNat + width idx ≤ 32 →
    ∃ t, exec (.pushi idx) s = .next t ∧
      (∀ j, j < 32 → t.w.p.getLsbD j =
        (s.w.p.getLsbD j ||
          (decide (32 - s.w.pc.toNat - width idx ≤ j) && idx.getLsbD (j - (32 - s.w.pc.toNat - width idx))))) ∧
      (∀ j, j < 32 → 32 - s.w.pc.toNat ≤ j → t.w.p.getLsbD j = s.w.p.getLsbD j) ∧
      t.w.pc.toNat = s.w.pc.toNat + width idx ∧
      t = { s with w := { s.w with p := t.w.p, pc := t.w.pc } }

/-- R102, R104: a symbol that crosses bit 0 of the primary lands flush at bit 0, and its low `ob` bits go to the top of
the secondary, whose cursor becomes `ob`, 1 to 4. -/
def Obligations.CrossingSymbolSpills : Prop :=
  ∀ (idx : SymIdx) (s : State), s.mode = .active → s.w.pc.toNat < 32 → 32 < s.w.pc.toNat + width idx →
    ∃ t ob, exec (.pushi idx) s = .next t ∧ ob = s.w.pc.toNat + width idx - 32 ∧ 1 ≤ ob ∧ ob ≤ 4 ∧
      (∀ j, j < 32 → t.w.p.getLsbD j = (s.w.p.getLsbD j || idx.getLsbD j)) ∧
      t.w.pc.toNat = s.w.pc.toNat + width idx ∧
      (∀ j, j < 32 → t.w.s.getLsbD j =
        (s.w.s.getLsbD j || (decide (32 - ob ≤ j) && idx.getLsbD (j - (32 - ob))))) ∧
      t.w.sc.toNat = ob ∧ t = { s with w := t.w }

/-- R105: with the primary saturated the symbol is placed into the secondary by the same rule; nothing is written
anywhere else, and the cursor stays at most 36. -/
def Obligations.SecondaryTakesTheSymbol : Prop :=
  ∀ (idx : SymIdx) (s : State), s.mode = .active → 32 ≤ s.w.pc.toNat → s.w.sc.toNat < 32 →
    ∃ t, exec (.pushi idx) s = .next t ∧
      (∀ j, j < 32 → t.w.s.getLsbD j =
        (s.w.s.getLsbD j ||
          (decide (max 0 ((32 - (s.w.sc.toNat : Int)) - width idx) ≤ j) &&
            idx.getLsbD (j - (max 0 ((32 - (s.w.sc.toNat : Int)) - width idx)).toNat)))) ∧
      t.w.sc.toNat = s.w.sc.toNat + width idx ∧ t.w.sc.toNat ≤ 36 ∧
      t = { s with w := { s.w with s := t.w.s, sc := t.w.sc } }

/-- R107: with both accumulators saturated the symbol is dropped, CAP is set and stays set, later pushes are dropped
too, and FINISH commits the words as packed with R_CAP = 1. -/
def Obligations.FullRunDropsSymbols : Prop :=
  ∀ (idx : SymIdx) (s : State), s.mode = .active → 32 ≤ s.w.pc.toNat → 32 ≤ s.w.sc.toNat →
    ∃ t, exec (.pushi idx) s = .next t ∧ t = { s with cap := true } ∧
      (∀ idx', exec (.pushi idx') t = .next t) ∧
      (∀ ch idx', symEncode ch = (true, idx') → exec (.pushc ch) t = .next t) ∧
      (∃ u, exec .finish t = .next u ∧ u.r = s.w ∧ u.rCap = true ∧ u.rValid = true)

/-- R112, R113: PUSHC of a character of the Alphabet acts as PUSHI of its index, in every MODE. -/
def Obligations.PushcOfAlphabetCharacterIsPushi : Prop :=
  (∀ (ch : CharCode) (idx : SymIdx) (s : State), symEncode ch = (true, idx) →
    exec (.pushc ch) s = exec (.pushi idx) s) ∧
  (∀ (idx : SymIdx) (s : State), exec (.pushc (symDecode idx)) s = exec (.pushi idx) s)

/-- The model's choice (log 3, after U9): with MODE = 0b11 the commands whose rule reads MODE stop, and the others run. -/
def Obligations.ReservedModeStopsModeReaders : Prop :=
  ∀ s : State, s.mode = .reserved →
    (∀ ch, exec (.pushc ch) s = .fault .reservedMode) ∧ (∀ idx, exec (.pushi idx) s = .fault .reservedMode) ∧
    exec .finish s = .fault .reservedMode ∧
    (∃ t, exec .nop s = .next t) ∧ (∃ t, exec .start s = .next t ∧ t.mode = .active)

/-- Every command completes in every MODE that R25 names, keeps MODE among them, and leaves the host's ports alone. -/
def Obligations.EveryCommandCompletes : Prop :=
  ∀ (i : Instr) (s : State), s.mode ≠ .reserved →
    ∃ t, exec i s = .next t ∧ t.mode ≠ .reserved ∧ t.pins = s.pins ∧ t.script = s.script

/-! ### Whole-machine rules -/

/-- R166: one command sets at most one flag, and the checks come in the order word, MODE, character, capacity; reset
comes before all. -/
def Obligations.OneCommandSetsAtMostOneFlag : Prop :=
  ∀ s t : State, step s = .next t →
    (∀ a b, errorFlag a s = false → errorFlag a t = true → errorFlag b s = false → errorFlag b t = true → a = b) ∧
    (s.pins.rst = true → ∀ e, errorFlag e t = false) ∧
    (∀ w, s.pins.Offers w → (∃ e, decode w = .error e) →
      t.ill = true ∧ t.seq = s.seq ∧ t.inv = s.inv ∧ t.cap = s.cap) ∧
    (∀ w i, s.pins.Offers w → decode w = .ok i → (i = .finish ∨ (∃ ch, i = .pushc ch) ∨ ∃ idx, i = .pushi idx) →
      s.mode = .idle → t.seq = true ∧ t.ill = s.ill ∧ t.inv = s.inv ∧ t.cap = s.cap) ∧
    (∀ w i, s.pins.Offers w → decode w = .ok i → ((∃ ch, i = .pushc ch) ∨ ∃ idx, i = .pushi idx) →
      s.mode = .aborted → ∀ e, errorFlag e t = errorFlag e s) ∧
    (∀ w ch, s.pins.Offers w → decode w = .ok (.pushc ch) → s.mode = .active → (symEncode ch).1 = false →
      t.inv = true ∧ t.ill = s.ill ∧ t.seq = s.seq ∧ t.cap = s.cap) ∧
    (∀ w i idx, s.pins.Offers w → decode w = .ok i → s.mode = .active →
      (i = .pushi idx ∨ ∃ ch, i = .pushc ch ∧ symEncode ch = (true, idx)) →
      (t.cap = true ↔ s.cap = true ∨ (32 ≤ s.w.pc.toNat ∧ 32 ≤ s.w.sc.toNat)) ∧
        t.ill = s.ill ∧ t.seq = s.seq ∧ t.inv = s.inv)

/-- R168: START clears the four flags and begins a fresh run, reset clears them, and no other edge clears one. -/
def Obligations.FlagsClearOnlyAtStartOrReset : Prop :=
  ∀ s : State,
    (s.pins.Offers 0x1000 → ∃ t, step s = .next t ∧ (∀ e, errorFlag e t = false) ∧ t.mode = .active ∧
      t.w = (pack []).1) ∧
    (s.pins.rst = true → ∃ t, step s = .next t ∧ ∀ e, errorFlag e t = false) ∧
    (∀ t e, step s = .next t → errorFlag e s = true → errorFlag e t = false →
      s.pins.rst = true ∨ s.pins.Offers 0x1000)

/-- R59: R_* and the ports derived from them change only at the edge that accepts a FINISH in ACTIVE, or at reset. -/
def Obligations.ResultsChangeOnlyAtCommitOrReset : Prop :=
  ∀ s t : State, step s = .next t → ¬ (s.pins.rst = true ∨ (s.pins.Offers 0x4000 ∧ s.mode = .active)) →
    (outputs t).resP = (outputs s).resP ∧ (outputs t).resPc = (outputs s).resPc ∧
    (outputs t).resS = (outputs s).resS ∧ (outputs t).resSc = (outputs s).resSc ∧
    (outputs t).resSShifted = (outputs s).resSShifted ∧ (outputs t).resXor = (outputs s).resXor ∧
    (outputs t).resCanon = (outputs s).resCanon ∧ t.rValid = s.rValid ∧ t.rCap = s.rCap

/-- 10_state.md R22: W_* are written only by START, by a push in a run, and by reset. -/
def Obligations.WorkingRegistersHaveFourWriters : Prop :=
  ∀ s t : State, step s = .next t → t.w ≠ s.w →
    s.pins.rst = true ∨ s.pins.Offers 0x1000 ∨
    (s.mode = .active ∧ ∃ idx, t.w = (packStep idx s).w ∧
      (s.pins.Offers (encode (.pushi idx)) ∨ ∃ ch, s.pins.Offers (encode (.pushc ch)) ∧ symEncode ch = (true, idx)))

/-- R25, R111 to R114: the edges on which MODE moves. -/
def Obligations.ModeMovesAlongTheRunDiagram : Prop :=
  ∀ s t : State, step s = .next t → t.mode ≠ s.mode →
    (t.mode = .idle ∧ (s.pins.rst = true ∨ (s.pins.Offers 0x4000 ∧ (s.mode = .active ∨ s.mode = .aborted)))) ∨
    (t.mode = .active ∧ s.pins.Offers 0x1000) ∨
    (t.mode = .aborted ∧ s.mode = .active ∧
      ∃ ch, s.pins.Offers (encode (.pushc ch)) ∧ (symEncode ch).1 = false ∧ t.w = s.w)

/-- R160 to R164: a flag rises only from its cause, with the effect beside the flag that the cause has. -/
def Obligations.RisingFlagHasItsCause : Prop :=
  ∀ (s t : State) (e : ErrorCause), step s = .next t → errorFlag e s = false → errorFlag e t = true →
    s.pins.rst = false ∧ t.r = s.r ∧ t.w = s.w ∧
    match e with
    | .inv => s.mode = .active ∧ t.mode = .aborted ∧
        ∃ ch, s.pins.Offers (encode (.pushc ch)) ∧ (symEncode ch).1 = false
    | .cap => s.mode = .active ∧ t.mode = .active ∧ 32 ≤ s.w.pc.toNat ∧ 32 ≤ s.w.sc.toNat ∧
        ((∃ idx, s.pins.Offers (encode (.pushi idx))) ∨
          ∃ ch, s.pins.Offers (encode (.pushc ch)) ∧ (symEncode ch).1 = true)
    | .seq => s.mode = .idle ∧ t.mode = .idle ∧
        (s.pins.Offers (encode .finish) ∨ (∃ idx, s.pins.Offers (encode (.pushi idx))) ∨
          ∃ ch, s.pins.Offers (encode (.pushc ch)))
    | .ill => t.mode = s.mode ∧ ∃ w, s.pins.Offers w ∧ ∃ x, decode w = .error x

/-- R103: packing never clears a bit of an accumulator; only START and reset do. -/
def Obligations.PackingNeverClearsABit : Prop :=
  ∀ (s t : State) (j : Nat), step s = .next t → s.pins.rst = false → ¬ s.pins.Offers 0x1000 →
    (s.w.p.getLsbD j = true → t.w.p.getLsbD j = true) ∧ (s.w.s.getLsbD j = true → t.w.s.getLsbD j = true) ∧
    s.w.pc.toNat ≤ t.w.pc.toNat

/-! ### Invariants -/

/-- The reset state is consistent (R32, R106). -/
def Obligations.ResetIsConsistent : Prop := State.reset.Consistent

/-- Every step keeps a consistent state consistent: the cursor invariants of R106, legal MODE, and what the flags say
of the run. -/
def Obligations.EveryStepKeepsConsistency : Prop :=
  ∀ s t : State, s.Consistent → step s = .next t → t.Consistent

/-- R182, R184: from any state, a power-up state among them, one reset edge and then any number of edges never stop,
and every state after the reset edge is consistent. -/
def Obligations.BlockNeverStopsAfterReset : Prop :=
  ∀ (s : State) (n : Nat), s.pins.rst = true →
    ∃ t, Host.Core.run Sys2Proof.core (n + 1) s = .next t ∧ t.Consistent

/-- The invariant the spec derives as R106 (e), as a sum: while nothing is dropped, the two cursors count the packed bits: W_PC all of them below 32, and then
W_SC those beyond 32. -/
def Obligations.CursorsCountThePackedBits : Prop :=
  ∀ idxs : List SymIdx, (pack idxs).2 = false →
    (totalWidth idxs < 32 → (pack idxs).1.pc.toNat = totalWidth idxs ∧ (pack idxs).1.sc.toNat = 0) ∧
    (32 ≤ totalWidth idxs → 32 ≤ (pack idxs).1.pc.toNat ∧ (pack idxs).1.pc.toNat ≤ 36 ∧
      32 + (pack idxs).1.sc.toNat = totalWidth idxs)

/-- The capacity the spec derives as R9: at least 13 and at most 16 symbols are placed before one is dropped; 13 when all are wide, 16 when all are
narrow. -/
def Obligations.RunHoldsThirteenToSixteenSymbols : Prop :=
  ∀ idxs : List SymIdx,
    (idxs.length ≤ 13 → (pack idxs).2 = false) ∧
    (17 ≤ idxs.length → (pack idxs).2 = true) ∧
    ((∀ i ∈ idxs, 16 ≤ i.toNat) → ((pack idxs).2 = true ↔ 14 ≤ idxs.length)) ∧
    ((∀ i ∈ idxs, i.toNat < 16) → ((pack idxs).2 = true ↔ 17 ≤ idxs.length))

/-! ### Runs -/

/-- Run equivalence, which the spec derives as R123: a run with only NOP or idle cycles in between commits the Packed Stream of its symbols, from any state. -/
def Obligations.RunCommitsThePackedStream : Prop :=
  ∀ (cycles : List PortIn) (words : List CmdWord) (idxs : List SymIdx) (s : State),
    (∀ p ∈ cycles, p.rst = false) →
    acceptedWords cycles = 0x1000 :: words ++ [0x4000] →
    List.Forall₂ (fun w i => w = encode (.pushi i) ∨ ∃ ch, symEncode ch = (true, i) ∧ w = encode (.pushc ch))
      words idxs →
    ∃ t, Host.Core.run Sys2Proof.core cycles.length (drive cycles s) = .next t ∧
      t.r = (pack idxs).1 ∧ t.rValid = true ∧ t.rCap = (pack idxs).2 ∧ t.mode = .idle

/-- R112, R114, R161: a run that meets an invalid character is never committed: the previous result stands, INV is set,
and MODE returns to IDLE. -/
def Obligations.InvalidCharacterKeepsThePreviousResult : Prop :=
  ∀ (cycles : List PortIn) (pushes : List Instr) (s : State),
    (∀ p ∈ cycles, p.rst = false) →
    acceptedWords cycles = encode .start :: pushes.map encode ++ [encode .finish] →
    (∀ i ∈ pushes, (∃ ch, i = .pushc ch) ∨ ∃ idx, i = .pushi idx) →
    (∃ ch, .pushc ch ∈ pushes ∧ (symEncode ch).1 = false) →
    ∃ t, Host.Core.run Sys2Proof.core cycles.length (drive cycles s) = .next t ∧
      t.r = s.r ∧ t.rValid = s.rValid ∧ t.rCap = s.rCap ∧ t.inv = true ∧ t.mode = .idle

/-- The properties the spec derives as R124 and R125: a run of one symbol left-justifies it: 4 bits at 31..28 or 5 bits at 31..27. -/
def Obligations.SingleSymbolRunIsLeftJustified : Prop :=
  ∀ (idx : SymIdx) (s : State), ∃ t, runOf [idx] s = .next t ∧
    (idx.toNat < 16 → t.r = ⟨idx.setWidth 32 <<< 28, 4, 0, 0⟩) ∧
    (16 ≤ idx.toNat → t.r = ⟨idx.setWidth 32 <<< 27, 5, 0, 0⟩)

/-- The property the spec derives as R126: a run whose widths sum to exactly 32 leaves the secondary empty; with
narrow symbols only that is eight of them, and eight `T` (index 15) fill the primary with ones. -/
def Obligations.ExactFillDoesNotSpill : Prop :=
  (∀ (idxs : List SymIdx) (s : State), totalWidth idxs = 32 →
    ∃ t, runOf idxs s = .next t ∧ t.r.pc = 32 ∧ t.r.s = 0 ∧ t.r.sc = 0 ∧ t.rCap = false) ∧
  (∀ idxs : List SymIdx, (∀ i ∈ idxs, i.toNat < 16) → (totalWidth idxs = 32 ↔ idxs.length = 8)) ∧
  (∀ s : State, ∃ t, runOf (List.replicate 8 15) s = .next t ∧ t.r.p = 0xFFFFFFFF)

/-- The model's reading (log 14) of the property the spec derives as R127: a run whose widths sum to 33..36 has R_SC = sum - 32, and the top R_SC bits of R_S are the
low R_SC bits of the last index. When the symbols before the last leave room in the primary the last one spills and
R_PC is the sum; when they fill it exactly the last one goes to the secondary and R_PC is 32. -/
def Obligations.OverflowingRunEndsInTheSecondary : Prop :=
  ∀ (before : List SymIdx) (last : SymIdx) (s : State),
    totalWidth before ≤ 32 → 33 ≤ totalWidth (before ++ [last]) → totalWidth (before ++ [last]) ≤ 36 →
    ∃ t, runOf (before ++ [last]) s = .next t ∧
      t.r.sc.toNat = totalWidth (before ++ [last]) - 32 ∧
      (∀ j, j < totalWidth (before ++ [last]) - 32 →
        t.r.s.getLsbD (32 - (totalWidth (before ++ [last]) - 32) + j) = last.getLsbD j) ∧
      t.r.pc.toNat = (if totalWidth before = 32 then 32 else totalWidth (before ++ [last]))

/-- The property the spec derives as R128: the empty run commits the zero stream, which is also the reset value of R_*. -/
def Obligations.EmptyRunCommitsZero : Prop :=
  ∀ s : State, ∃ t, runOf [] s = .next t ∧ t.r = ⟨0, 0, 0, 0⟩ ∧ t.r = State.reset.r

/-- The property the spec derives as R129: packing is not injective: `>>>>>IB` and `>>>>>IG` give one Packed Stream. -/
def Obligations.PackingIsNotInjective : Prop :=
  ∀ s : State, ∃ t u, runOf [31, 31, 31, 31, 31, 17, 0] s = .next t ∧ runOf [31, 31, 31, 31, 31, 17, 4] s = .next u ∧
    t.r = ⟨0xFFFFFFC4, 34, 0, 2⟩ ∧ u.r = t.r

/-- The property the spec derives as R146: eight narrow symbols fill R_P as its nibbles, so res_canon begins with them; a wide symbol among the first
eight never comes back. -/
def Obligations.NarrowSymbolsComeBackCanonical : Prop :=
  (∀ (eight rest : List SymIdx) (s : State), eight.length = 8 → (∀ i ∈ eight, i.toNat < 16) →
    ((pack eight).1.pc = 32 ∧
    ∃ t, runOf (eight ++ rest) s = .next t ∧ ∀ (k : Nat) (i : SymIdx), eight[k]? = some i →
      (nibble t.r.p k).toNat = i.toNat ∧ (outputs t).resCanon.extractLsb' (72 - 8 * k) 8 = symDecode i)) ∧
  (∀ (idxs : List SymIdx) (s : State), ∃ t, runOf idxs s = .next t ∧ ∀ (k : Nat) (i : SymIdx), k < 8 →
    idxs[k]? = some i → 16 ≤ i.toNat → (outputs t).resCanon.extractLsb' (72 - 8 * k) 8 ≠ symDecode i)

/-- After R31 and R111: nothing of the past survives a START: after it, and whatever the host does next, the working registers,
MODE and the flags do not depend on the state before it. -/
def Obligations.StartForgetsThePast : Prop :=
  ∀ (first : PortIn) (cycles : List PortIn) (s u : State), first.Offers 0x1000 →
    ∃ t v, Host.Core.run Sys2Proof.core (cycles.length + 1) (drive (first :: cycles) s) = .next t ∧
      Host.Core.run Sys2Proof.core (cycles.length + 1) (drive (first :: cycles) u) = .next v ∧
      t.w = v.w ∧ t.mode = v.mode ∧ ∀ e, errorFlag e t = errorFlag e v

/-! ### Output and function ports -/

/-- R27: the fields of the status port, and that an edge without reset and without an accepted word leaves it. -/
def Obligations.StatusPortLayout : Prop :=
  ∀ s : State,
    ((outputs s).status.extractLsb' 0 2 = match s.mode with
      | .idle => 0b00 | .active => 0b01 | .aborted => 0b10 | .reserved => 0b11) ∧
    (outputs s).status.getLsbD 2 = s.inv ∧ (outputs s).status.getLsbD 3 = s.cap ∧
    (outputs s).status.getLsbD 4 = s.seq ∧ (outputs s).status.getLsbD 5 = s.ill ∧
    (outputs s).status.getLsbD 6 = s.rValid ∧ (outputs s).status.getLsbD 7 = s.rCap ∧
    (∀ e, (outputs s).status.getLsbD e.code = errorFlag e s) ∧
    (outputs State.reset).status = 0x00 ∧
    (s.pins.rst = false → s.pins.cmdValid = false →
      ∃ t, step s = .next t ∧ (outputs t).status = (outputs s).status)

/-- R120: res_s_shifted right-justifies the secondary: a shift by 32 - SC for SC in 1..32, 0 for SC = 0, none above. -/
def Obligations.ShiftedSecondaryIsRightJustified : Prop :=
  ∀ s : State,
    (s.r.sc = 0 → (outputs s).resSShifted = 0) ∧
    (1 ≤ s.r.sc.toNat → s.r.sc.toNat ≤ 32 →
      ∀ j, (outputs s).resSShifted.getLsbD j = s.r.s.getLsbD (32 - s.r.sc.toNat + j)) ∧
    (33 ≤ s.r.sc.toNat → s.r.sc.toNat ≤ 36 → (outputs s).resSShifted = s.r.s)

/-- R121, R122: res_xor is the XOR of the primary and the shifted secondary of one run, and the report's strings are the
32 digits of res_p, res_s_shifted and res_xor, most significant first. -/
def Obligations.ReportIsThreeDigitStrings : Prop :=
  ∀ s : State,
    (outputs s).resXor = (outputs s).resP ^^^ (outputs s).resSShifted ∧
    (report s).primaryBinary.length = 32 ∧ (report s).secondaryShiftedBinary.length = 32 ∧
    (report s).xorBinary.length = 32 ∧
    ∀ k, k < 32 →
      (report s).primaryBinary[k]? = some (if (outputs s).resP.getLsbD (31 - k) then '1' else '0') ∧
      (report s).secondaryShiftedBinary[k]? =
        some (if (outputs s).resSShifted.getLsbD (31 - k) then '1' else '0') ∧
      (report s).xorBinary[k]? = some (if (outputs s).resXor.getLsbD (31 - k) then '1' else '0')

/-- R140 to R142, R144: lane k of canon_out and res_canon is the Symbol Table's code of nibble k, most significant
first, and the last two codes are CANON_SUFFIX whatever the word; it holds of every value of the suffix. -/
def Obligations.CanonicalLanesAreNibbles : Prop :=
  ∀ s : State,
    (∀ k, k < 8 →
      (outputs s).canonOut.extractLsb' (72 - 8 * k) 8 =
        symDecode ((s.pins.canonIn.extractLsb' (28 - 4 * k) 4).setWidth 5) ∧
      (outputs s).resCanon.extractLsb' (72 - 8 * k) 8 =
        symDecode (((outputs s).resP.extractLsb' (28 - 4 * k) 4).setWidth 5)) ∧
    (outputs s).canonOut.extractLsb' 8 8 = Config.canonSuffix.1 ∧
    (outputs s).canonOut.extractLsb' 0 8 = Config.canonSuffix.2 ∧
    (outputs s).resCanon.extractLsb' 8 8 = Config.canonSuffix.1 ∧
    (outputs s).resCanon.extractLsb' 0 8 = Config.canonSuffix.2

/-- The laws the spec derives as R145: each of the first eight characters is one of the 16 narrow codes, and distinct words give distinct first
eight characters. -/
def Obligations.CanonicalFormIsInjective : Prop :=
  (∀ (x : Word) (k : Nat), k < 8 → (canonOut x).extractLsb' (72 - 8 * k) 8 ∈
    [(0x42 : CharCode), 0x43, 0x44, 0x46, 0x47, 0x48, 0x4A, 0x4B, 0x4C, 0x4D, 0x4E, 0x50, 0x51, 0x52, 0x53, 0x54]) ∧
  (∀ x y : Word, (canonOut x).extractLsb' 16 64 = (canonOut y).extractLsb' 16 64 → x = y) ∧
  (∀ s t : State, s.pins.canonIn = t.pins.canonIn → (outputs s).canonOut = (outputs t).canonOut)

/-- R151, R152, R154: the Differ, lane by lane, and its sequence of pairs, which carries the candidate's digits. -/
def Obligations.DifferLanes : Prop :=
  ∀ s : State,
    (∀ j, j < 32 →
      (outputs s).diffMatch.getLsbD j = (s.pins.diffA.getLsbD j == s.pins.diffB.getLsbD j) ∧
      (outputs s).diffXor.getLsbD j = (s.pins.diffA.getLsbD j != s.pins.diffB.getLsbD j)) ∧
    (diffPairs s.pins.diffA s.pins.diffB).length = 32 ∧
    (∀ k, k < 32 → (diffPairs s.pins.diffA s.pins.diffB)[k]? =
      some (if s.pins.diffB.getLsbD (31 - k) then '1' else '0',
        s.pins.diffA.getLsbD (31 - k) == s.pins.diffB.getLsbD (31 - k)))

/-- The laws the spec derives as R153 and R156 from R151 and R152: diff_eq says that no position differs, diff(x, x)
matches everywhere, and the match bits, the XOR and diff_eq are symmetric in the operands. -/
def Obligations.DifferIsReflexiveAndSymmetric : Prop :=
  ∀ s t : State,
    ((outputs s).diffEq = true ↔ (outputs s).diffXor = 0) ∧
    ((outputs s).diffEq = true ↔ (outputs s).diffMatch = 0xFFFFFFFF) ∧
    (s.pins.diffA = s.pins.diffB →
      (outputs s).diffMatch = 0xFFFFFFFF ∧ (outputs s).diffXor = 0 ∧ (outputs s).diffEq = true) ∧
    (t.pins.diffA = s.pins.diffB → t.pins.diffB = s.pins.diffA →
      (outputs t).diffMatch = (outputs s).diffMatch ∧ (outputs t).diffXor = (outputs s).diffXor ∧
        (outputs t).diffEq = (outputs s).diffEq ∧
        (diffPairs t.pins.diffA t.pins.diffB).map Prod.snd = (diffPairs s.pins.diffA s.pins.diffB).map Prod.snd)

/-- The law the spec derives as R86 from R81, R82 and R84: the encode and decode ports are inverse on the Alphabet. -/
def Obligations.SymbolTableIsInvertible : Prop :=
  (∀ s t : State, t.pins.encChar = (outputs s).decChar →
    (outputs t).encValid = true ∧ (outputs t).encIdx = s.pins.decIdx) ∧
  (∀ s t : State, (outputs s).encValid = true → t.pins.decIdx = (outputs s).encIdx →
    (outputs t).decChar = s.pins.encChar)

/-- R80, R81, whose codes are ASCII (log 6): the ROM holds the codes of the Alphabet in order, they are distinct, and encode accepts exactly them. -/
def Obligations.AlphabetIsTheThirtyTwoCodes : Prop :=
  (List.range 32).map (fun i => symDecode (BitVec.ofNat 5 i)) =
    ['B', 'C', 'D', 'F', 'G', 'H', 'J', 'K', 'L', 'M', 'N', 'P', 'Q', 'R', 'S', 'T',
     'A', 'I', 'U', 'E', 'O', ' ', 'V', 'W', 'X', 'Y', 'Z', '.', ',', '&', '<', '>'].map charCode ∧
  (∀ i j : SymIdx, symDecode i = symDecode j → i = j) ∧
  (∀ ch : CharCode, (symEncode ch).1 = true ↔ ∃ i : SymIdx, symDecode i = ch) ∧
  (∀ ch : CharCode, (0x41 ≤ ch.toNat ∧ ch.toNat ≤ 0x5A → (symEncode ch).1 = true) ∧
    (0x61 ≤ ch.toNat ∧ ch.toNat ≤ 0x7A → (symEncode ch).1 = false) ∧
    (0x30 ≤ ch.toNat ∧ ch.toNat ≤ 0x39 → (symEncode ch).1 = false) ∧
    (ch = 0x00 → (symEncode ch).1 = false))

/-- R187: a function port depends on its own inputs only, not on a register, and driving it changes no register. -/
def Obligations.FunctionPortsTouchNoRegister : Prop :=
  (∀ s t : State,
    (s.pins.encChar = t.pins.encChar →
      (outputs s).encValid = (outputs t).encValid ∧ (outputs s).encIdx = (outputs t).encIdx) ∧
    (s.pins.decIdx = t.pins.decIdx → (outputs s).decChar = (outputs t).decChar) ∧
    (s.pins.canonIn = t.pins.canonIn → (outputs s).canonOut = (outputs t).canonOut) ∧
    (s.pins.diffA = t.pins.diffA → s.pins.diffB = t.pins.diffB →
      (outputs s).diffMatch = (outputs t).diffMatch ∧ (outputs s).diffXor = (outputs t).diffXor ∧
        (outputs s).diffEq = (outputs t).diffEq)) ∧
  (∀ (s t : State) (c : CharCode) (i : SymIdx) (x a b : Word), step s = .next t →
    ∃ t', step { s with pins := { s.pins with encChar := c, decIdx := i, canonIn := x, diffA := a, diffB := b } } =
      .next t' ∧ SameRegisters t' t)
end

