-- ==== Sys2Proof/Laws/Packing.lean ====
section
/-! SUPPORT. The pack step: what one symbol does to a Packed Stream, and what a sequence of symbols does. -/

namespace Sys2Proof.Machine

variable (k : PackedStream) (idx : SymIdx)

/-! ### Widths and placement -/

theorem width_eq_four_or_five : width idx = 4 ∨ width idx = 5 := by unfold width; split <;> simp

theorem width_bounds : 4 ≤ width idx ∧ width idx ≤ 5 := by
  rcases width_eq_four_or_five idx with h | h <;> omega

/-- The whole index is its low `width` bits (R100). -/
theorem idx_lt_two_pow_width : idx.toNat < 2 ^ width idx := by
  revert idx; decide

theorem getLsbD_idx_of_width_le {j : Nat} (h : width idx ≤ j) : idx.getLsbD j = false :=
  Nat.testBit_lt_two_pow (Nat.lt_of_lt_of_le (idx_lt_two_pow_width idx) (Nat.pow_le_pow_right (by omega) h))

/-- Bit j of a placed symbol's word: the bits already there, or the index at `place` (R102, R103). -/
theorem getLsbD_placeSymbol (word : Word) (c j : Nat) (hj : j < 32) :
    (placeSymbol word c idx).getLsbD j =
      (word.getLsbD j || (decide (place c (width idx) ≤ j) && idx.getLsbD (j - place c (width idx)))) := by
  simp only [placeSymbol, BitVec.getLsbD_or, BitVec.getLsbD_shiftLeft, BitVec.getLsbD_setWidth, hj]
  by_cases h : place c (width idx) ≤ j
  · simp [h, show ¬ j < place c (width idx) by omega, show j - place c (width idx) < 32 by omega]
  · simp [h, show j < place c (width idx) by omega]

/-- Bit j of a word that took a spill of ob bits (R104). -/
theorem getLsbD_spillInto (word : Word) (ob j : Nat) (hob : ob ≤ 32) (hj : j < 32) :
    (spillInto word ob idx).getLsbD j =
      (word.getLsbD j || (decide (32 - ob ≤ j) && idx.getLsbD (j - (32 - ob)))) := by
  simp only [spillInto, BitVec.getLsbD_or, BitVec.getLsbD_shiftLeft, BitVec.getLsbD_ofNat, hj]
  by_cases h : 32 - ob ≤ j
  · simp [h, show ¬ j < 32 - ob by omega, show j - (32 - ob) < 32 by omega, Nat.testBit_mod_two_pow,
      show j - (32 - ob) < ob by omega, BitVec.getLsbD]
  · simp [h, show j < 32 - ob by omega]

/-! ### One symbol -/

/-- What packing one symbol can do (R101): case A, case B, or nothing when both words are saturated. -/
theorem push?_cases :
    (k.pc.toNat < 32 ∧ k.push? idx = some (k.pushPrimary idx)) ∨
    (32 ≤ k.pc.toNat ∧ k.sc.toNat < 32 ∧ k.push? idx = some (k.pushSecondary idx)) ∨
    (k.Full ∧ k.push? idx = none) := by
  unfold PackedStream.push? PackedStream.Full
  by_cases hp : k.pc.toNat < 32
  · simp [hp]
  · by_cases hs : k.sc.toNat < 32
    · simp [hp, hs, show 32 ≤ k.pc.toNat by omega]
    · simp [hp, hs, show 32 ≤ k.pc.toNat by omega, show 32 ≤ k.sc.toNat by omega]

theorem push?_eq_none_iff : k.push? idx = none ↔ k.Full := by
  rcases push?_cases k idx with ⟨h, e⟩ | ⟨h, h', e⟩ | ⟨h, e⟩ <;> simp [e, PackedStream.Full] at * <;> omega

theorem toNat_cursor {n : Nat} (h : n < 64) : (BitVec.ofNat 6 n).toNat = n := by
  simp only [BitVec.toNat_ofNat]; omega

@[simp] theorem pushPrimary_p : (k.pushPrimary idx).p = placeSymbol k.p k.pc.toNat idx := by
  unfold PackedStream.pushPrimary; dsimp only; split <;> rfl

theorem pushPrimary_pc (h : k.pc.toNat < 32) : (k.pushPrimary idx).pc.toNat = k.pc.toNat + width idx := by
  have hw := width_bounds idx
  unfold PackedStream.pushPrimary
  dsimp only
  split <;> exact toNat_cursor (by omega)

/-- No spill at or below 32: the secondary is untouched (R104). -/
theorem pushPrimary_secondary_of_le (h : k.pc.toNat + width idx ≤ 32) :
    (k.pushPrimary idx).s = k.s ∧ (k.pushPrimary idx).sc = k.sc := by
  unfold PackedStream.pushPrimary
  simp [show ¬ 32 < k.pc.toNat + width idx by omega]

/-- A spill: the low bits of the raw index at the top of the secondary (R104). -/
theorem pushPrimary_secondary_of_lt (h : k.pc.toNat < 32) (h' : 32 < k.pc.toNat + width idx) :
    (k.pushPrimary idx).s = spillInto k.s (k.pc.toNat + width idx - 32) idx ∧
    (k.pushPrimary idx).sc.toNat = k.pc.toNat + width idx - 32 := by
  have hw := width_bounds idx
  unfold PackedStream.pushPrimary
  simp only [h', if_true, true_and]
  exact toNat_cursor (by omega)

@[simp] theorem pushSecondary_p : (k.pushSecondary idx).p = k.p := rfl
@[simp] theorem pushSecondary_pc : (k.pushSecondary idx).pc = k.pc := rfl
@[simp] theorem pushSecondary_s : (k.pushSecondary idx).s = placeSymbol k.s k.sc.toNat idx := rfl

theorem pushSecondary_sc (h : k.sc.toNat < 32) : (k.pushSecondary idx).sc.toNat = k.sc.toNat + width idx :=
  toNat_cursor (by have := width_bounds idx; omega)

/-! ### Packing keeps a stream well packed (R106) -/

theorem wellPacked_empty : PackedStream.empty.WellPacked := by constructor <;> simp [PackedStream.empty]

/-- A placed symbol writes no bit below the new cursor. -/
theorem placeSymbol_free {word : Word} {c j : Nat} (hf : ∀ j, j < 32 - c → word.getLsbD j = false)
    (hj : j < 32 - (c + width idx)) : (placeSymbol word c idx).getLsbD j = false := by
  rw [getLsbD_placeSymbol _ _ _ _ (by omega), hf j (by omega)]
  have : ¬ place c (width idx) ≤ j := by unfold place; omega
  simp [this]

theorem wellPacked_pushPrimary (hk : k.WellPacked) (h : k.pc.toNat < 32) : (k.pushPrimary idx).WellPacked := by
  have hw := width_bounds idx
  have hpc := pushPrimary_pc k idx h
  obtain ⟨hs0, hsc0⟩ := hk.secondary_unused h
  by_cases hfit : k.pc.toNat + width idx ≤ 32
  · obtain ⟨hs, hsc⟩ := pushPrimary_secondary_of_le k idx hfit
    refine ⟨by omega, by simp [hsc, hsc0], fun _ => by simp [hs, hsc, hs0, hsc0], fun _ => by simp [hs, hs0],
      by omega, fun j hj => ?_, fun j _ => by simp [hs, hs0]⟩
    rw [hpc] at hj
    simpa using placeSymbol_free idx hk.primary_free hj
  · obtain ⟨hs, hsc⟩ := pushPrimary_secondary_of_lt k idx h (by omega)
    refine ⟨by omega, by omega, fun _ => by omega, fun h0 => ?_, by omega, fun j _ => by omega, fun j hj => ?_⟩
    · rw [h0] at hsc; simp at hsc; omega
    · rw [hs, getLsbD_spillInto _ _ _ _ (by omega) (by omega), hs0]
      simp; omega

theorem wellPacked_pushSecondary (hk : k.WellPacked) (h : 32 ≤ k.pc.toNat) (h' : k.sc.toNat < 32) :
    (k.pushSecondary idx).WellPacked := by
  have hw := width_bounds idx
  have hsc := pushSecondary_sc k idx h'
  refine ⟨by simpa using hk.pc_le, by omega, fun h0 => ?_, fun h0 => ?_, ?_, by simpa using hk.primary_free,
    fun j hj => ?_⟩
  · simp at h0; omega
  · rw [h0] at hsc; simp at hsc; omega
  · have := hk.spill_counted; simp; omega
  · rw [hsc] at hj
    simpa using placeSymbol_free idx hk.secondary_free hj

/-- One symbol keeps a stream well packed. -/
theorem wellPacked_push? {k' : PackedStream} (hk : k.WellPacked) (h : k.push? idx = some k') : k'.WellPacked := by
  rcases push?_cases k idx with ⟨hp, e⟩ | ⟨hp, hs, e⟩ | ⟨_, e⟩ <;> rw [e] at h
  · cases h; exact wellPacked_pushPrimary k idx hk hp
  · cases h; exact wellPacked_pushSecondary k idx hk hp hs
  · cases h

/-! ### The pack step on the state -/

/-- What a pack step can do to the state: W_* take the symbol, or CAP is set (R101, R107). -/
theorem packStep_cases (s : State) :
    (∃ k, s.w.push? idx = some k ∧ packStep idx s = { s with w := k }) ∨
    (s.w.Full ∧ packStep idx s = reportError .cap s) := by
  unfold packStep
  cases h : s.w.push? idx with
  | some k => exact .inl ⟨k, rfl, rfl⟩
  | none => exact .inr ⟨(push?_eq_none_iff _ _).1 h, rfl⟩

theorem packStep_of_some {s : State} {k' : PackedStream} (h : s.w.push? idx = some k') :
    packStep idx s = { s with w := k' } := by simp [packStep, h]

theorem packStep_of_full {s : State} (h : s.w.Full) : packStep idx s = reportError .cap s := by
  simp [packStep, (push?_eq_none_iff s.w idx).2 h]

/-- The pack step on W_* and CAP is the step of `pack` (R123). -/
theorem packOne_working (s : State) :
    packOne (s.w, s.cap) idx = ((packStep idx s).w, (packStep idx s).cap) := by
  unfold packOne packStep
  cases s.w.push? idx <;> rfl

/-! ### Sequences -/

@[simp] theorem pack_nil : pack [] = (.empty, false) := rfl

theorem pack_concat (idxs : List SymIdx) : pack (idxs ++ [idx]) = packOne (pack idxs) idx := by
  simp [pack, List.foldl_append]

end Sys2Proof.Machine
end

