-- ==== Sys2Proof/Laws/State.lean ====
section
/-! SUPPORT. One lemma per register per update of the state, so that no later proof unfolds a record update. -/

namespace Sys2Proof.Machine

variable (s : State)

@[simp] theorem reportError_inv_w : (reportError .inv s).w = s.w := rfl
@[simp] theorem reportError_inv_r : (reportError .inv s).r = s.r := rfl
@[simp] theorem reportError_inv_rValid : (reportError .inv s).rValid = s.rValid := rfl
@[simp] theorem reportError_inv_rCap : (reportError .inv s).rCap = s.rCap := rfl
@[simp] theorem reportError_inv_mode : (reportError .inv s).mode = .aborted := rfl
@[simp] theorem reportError_inv_inv : (reportError .inv s).inv = true := rfl
@[simp] theorem reportError_inv_cap : (reportError .inv s).cap = s.cap := rfl
@[simp] theorem reportError_inv_seq : (reportError .inv s).seq = s.seq := rfl
@[simp] theorem reportError_inv_ill : (reportError .inv s).ill = s.ill := rfl
@[simp] theorem reportError_inv_pins : (reportError .inv s).pins = s.pins := rfl
@[simp] theorem reportError_inv_script : (reportError .inv s).script = s.script := rfl

@[simp] theorem reportError_cap_w : (reportError .cap s).w = s.w := rfl
@[simp] theorem reportError_cap_r : (reportError .cap s).r = s.r := rfl
@[simp] theorem reportError_cap_rValid : (reportError .cap s).rValid = s.rValid := rfl
@[simp] theorem reportError_cap_rCap : (reportError .cap s).rCap = s.rCap := rfl
@[simp] theorem reportError_cap_mode : (reportError .cap s).mode = s.mode := rfl
@[simp] theorem reportError_cap_inv : (reportError .cap s).inv = s.inv := rfl
@[simp] theorem reportError_cap_cap : (reportError .cap s).cap = true := rfl
@[simp] theorem reportError_cap_seq : (reportError .cap s).seq = s.seq := rfl
@[simp] theorem reportError_cap_ill : (reportError .cap s).ill = s.ill := rfl
@[simp] theorem reportError_cap_pins : (reportError .cap s).pins = s.pins := rfl
@[simp] theorem reportError_cap_script : (reportError .cap s).script = s.script := rfl

@[simp] theorem reportError_seq_w : (reportError .seq s).w = s.w := rfl
@[simp] theorem reportError_seq_r : (reportError .seq s).r = s.r := rfl
@[simp] theorem reportError_seq_rValid : (reportError .seq s).rValid = s.rValid := rfl
@[simp] theorem reportError_seq_rCap : (reportError .seq s).rCap = s.rCap := rfl
@[simp] theorem reportError_seq_mode : (reportError .seq s).mode = s.mode := rfl
@[simp] theorem reportError_seq_inv : (reportError .seq s).inv = s.inv := rfl
@[simp] theorem reportError_seq_cap : (reportError .seq s).cap = s.cap := rfl
@[simp] theorem reportError_seq_seq : (reportError .seq s).seq = true := rfl
@[simp] theorem reportError_seq_ill : (reportError .seq s).ill = s.ill := rfl
@[simp] theorem reportError_seq_pins : (reportError .seq s).pins = s.pins := rfl
@[simp] theorem reportError_seq_script : (reportError .seq s).script = s.script := rfl

@[simp] theorem reportError_ill_w : (reportError .ill s).w = s.w := rfl
@[simp] theorem reportError_ill_r : (reportError .ill s).r = s.r := rfl
@[simp] theorem reportError_ill_rValid : (reportError .ill s).rValid = s.rValid := rfl
@[simp] theorem reportError_ill_rCap : (reportError .ill s).rCap = s.rCap := rfl
@[simp] theorem reportError_ill_mode : (reportError .ill s).mode = s.mode := rfl
@[simp] theorem reportError_ill_inv : (reportError .ill s).inv = s.inv := rfl
@[simp] theorem reportError_ill_cap : (reportError .ill s).cap = s.cap := rfl
@[simp] theorem reportError_ill_seq : (reportError .ill s).seq = s.seq := rfl
@[simp] theorem reportError_ill_ill : (reportError .ill s).ill = true := rfl
@[simp] theorem reportError_ill_pins : (reportError .ill s).pins = s.pins := rfl
@[simp] theorem reportError_ill_script : (reportError .ill s).script = s.script := rfl

@[simp] theorem clearErrors_w : (clearErrors s).w = s.w := rfl
@[simp] theorem clearErrors_r : (clearErrors s).r = s.r := rfl
@[simp] theorem clearErrors_rValid : (clearErrors s).rValid = s.rValid := rfl
@[simp] theorem clearErrors_rCap : (clearErrors s).rCap = s.rCap := rfl
@[simp] theorem clearErrors_mode : (clearErrors s).mode = s.mode := rfl
@[simp] theorem clearErrors_inv : (clearErrors s).inv = false := rfl
@[simp] theorem clearErrors_cap : (clearErrors s).cap = false := rfl
@[simp] theorem clearErrors_seq : (clearErrors s).seq = false := rfl
@[simp] theorem clearErrors_ill : (clearErrors s).ill = false := rfl
@[simp] theorem clearErrors_pins : (clearErrors s).pins = s.pins := rfl
@[simp] theorem clearErrors_script : (clearErrors s).script = s.script := rfl

@[simp] theorem beginRun_w : (beginRun s).w = .empty := rfl
@[simp] theorem beginRun_r : (beginRun s).r = s.r := rfl
@[simp] theorem beginRun_rValid : (beginRun s).rValid = s.rValid := rfl
@[simp] theorem beginRun_rCap : (beginRun s).rCap = s.rCap := rfl
@[simp] theorem beginRun_mode : (beginRun s).mode = .active := rfl
@[simp] theorem beginRun_inv : (beginRun s).inv = false := rfl
@[simp] theorem beginRun_cap : (beginRun s).cap = false := rfl
@[simp] theorem beginRun_seq : (beginRun s).seq = false := rfl
@[simp] theorem beginRun_ill : (beginRun s).ill = false := rfl
@[simp] theorem beginRun_pins : (beginRun s).pins = s.pins := rfl
@[simp] theorem beginRun_script : (beginRun s).script = s.script := rfl

@[simp] theorem commitRun_w : (commitRun s).w = s.w := rfl
@[simp] theorem commitRun_r : (commitRun s).r = s.w := rfl
@[simp] theorem commitRun_rValid : (commitRun s).rValid = true := rfl
@[simp] theorem commitRun_rCap : (commitRun s).rCap = s.cap := rfl
@[simp] theorem commitRun_mode : (commitRun s).mode = .idle := rfl
@[simp] theorem commitRun_inv : (commitRun s).inv = s.inv := rfl
@[simp] theorem commitRun_cap : (commitRun s).cap = s.cap := rfl
@[simp] theorem commitRun_seq : (commitRun s).seq = s.seq := rfl
@[simp] theorem commitRun_ill : (commitRun s).ill = s.ill := rfl
@[simp] theorem commitRun_pins : (commitRun s).pins = s.pins := rfl
@[simp] theorem commitRun_script : (commitRun s).script = s.script := rfl

@[simp] theorem dropRun_w : (dropRun s).w = s.w := rfl
@[simp] theorem dropRun_r : (dropRun s).r = s.r := rfl
@[simp] theorem dropRun_rValid : (dropRun s).rValid = s.rValid := rfl
@[simp] theorem dropRun_rCap : (dropRun s).rCap = s.rCap := rfl
@[simp] theorem dropRun_mode : (dropRun s).mode = .idle := rfl
@[simp] theorem dropRun_inv : (dropRun s).inv = s.inv := rfl
@[simp] theorem dropRun_cap : (dropRun s).cap = s.cap := rfl
@[simp] theorem dropRun_seq : (dropRun s).seq = s.seq := rfl
@[simp] theorem dropRun_ill : (dropRun s).ill = s.ill := rfl
@[simp] theorem dropRun_pins : (dropRun s).pins = s.pins := rfl
@[simp] theorem dropRun_script : (dropRun s).script = s.script := rfl

@[simp] theorem resetRegisters_w : (resetRegisters s).w = .empty := rfl
@[simp] theorem resetRegisters_r : (resetRegisters s).r = .empty := rfl
@[simp] theorem resetRegisters_rValid : (resetRegisters s).rValid = false := rfl
@[simp] theorem resetRegisters_rCap : (resetRegisters s).rCap = false := rfl
@[simp] theorem resetRegisters_mode : (resetRegisters s).mode = .idle := rfl
@[simp] theorem resetRegisters_inv : (resetRegisters s).inv = false := rfl
@[simp] theorem resetRegisters_cap : (resetRegisters s).cap = false := rfl
@[simp] theorem resetRegisters_seq : (resetRegisters s).seq = false := rfl
@[simp] theorem resetRegisters_ill : (resetRegisters s).ill = false := rfl
@[simp] theorem resetRegisters_pins : (resetRegisters s).pins = s.pins := rfl
@[simp] theorem resetRegisters_script : (resetRegisters s).script = s.script := rfl

/-! A cycle passes: only the ports move. -/

@[simp] theorem nextCycle_w : (nextCycle s).w = s.w := by unfold nextCycle; split <;> rfl
@[simp] theorem nextCycle_r : (nextCycle s).r = s.r := by unfold nextCycle; split <;> rfl
@[simp] theorem nextCycle_rValid : (nextCycle s).rValid = s.rValid := by unfold nextCycle; split <;> rfl
@[simp] theorem nextCycle_rCap : (nextCycle s).rCap = s.rCap := by unfold nextCycle; split <;> rfl
@[simp] theorem nextCycle_mode : (nextCycle s).mode = s.mode := by unfold nextCycle; split <;> rfl
@[simp] theorem nextCycle_inv : (nextCycle s).inv = s.inv := by unfold nextCycle; split <;> rfl
@[simp] theorem nextCycle_cap : (nextCycle s).cap = s.cap := by unfold nextCycle; split <;> rfl
@[simp] theorem nextCycle_seq : (nextCycle s).seq = s.seq := by unfold nextCycle; split <;> rfl
@[simp] theorem nextCycle_ill : (nextCycle s).ill = s.ill := by unfold nextCycle; split <;> rfl

theorem nextCycle_nil (h : s.script = []) :
    (nextCycle s).pins = { s.pins with rst := false, cmdValid := false } ∧ (nextCycle s).script = [] := by
  simp [nextCycle, h]

theorem nextCycle_cons {p : PortIn} {rest : List PortIn} (h : s.script = p :: rest) :
    (nextCycle s).pins = p ∧ (nextCycle s).script = rest := by
  simp [nextCycle, h]

theorem nextCycle_sameRegisters : SameRegisters (nextCycle s) s := by simp [SameRegisters]

/-! The pack step writes W_* and CAP only. -/

@[simp] theorem packStep_r (idx : SymIdx) : (packStep idx s).r = s.r := by unfold packStep; split <;> rfl
@[simp] theorem packStep_rValid (idx : SymIdx) : (packStep idx s).rValid = s.rValid := by unfold packStep; split <;> rfl
@[simp] theorem packStep_rCap (idx : SymIdx) : (packStep idx s).rCap = s.rCap := by unfold packStep; split <;> rfl
@[simp] theorem packStep_mode (idx : SymIdx) : (packStep idx s).mode = s.mode := by unfold packStep; split <;> rfl
@[simp] theorem packStep_inv (idx : SymIdx) : (packStep idx s).inv = s.inv := by unfold packStep; split <;> rfl
@[simp] theorem packStep_seq (idx : SymIdx) : (packStep idx s).seq = s.seq := by unfold packStep; split <;> rfl
@[simp] theorem packStep_ill (idx : SymIdx) : (packStep idx s).ill = s.ill := by unfold packStep; split <;> rfl
@[simp] theorem packStep_pins (idx : SymIdx) : (packStep idx s).pins = s.pins := by unfold packStep; split <;> rfl
@[simp] theorem packStep_script (idx : SymIdx) : (packStep idx s).script = s.script := by unfold packStep; split <;> rfl

/-! The host drives the ports: no register moves. -/

@[simp] theorem drive_w (cycles : List PortIn) : (drive cycles s).w = s.w := by cases cycles <;> rfl
@[simp] theorem offer_w (word : CmdWord) : (offer word s).w = s.w := rfl
@[simp] theorem drive_r (cycles : List PortIn) : (drive cycles s).r = s.r := by cases cycles <;> rfl
@[simp] theorem offer_r (word : CmdWord) : (offer word s).r = s.r := rfl
@[simp] theorem drive_rValid (cycles : List PortIn) : (drive cycles s).rValid = s.rValid := by cases cycles <;> rfl
@[simp] theorem offer_rValid (word : CmdWord) : (offer word s).rValid = s.rValid := rfl
@[simp] theorem drive_rCap (cycles : List PortIn) : (drive cycles s).rCap = s.rCap := by cases cycles <;> rfl
@[simp] theorem offer_rCap (word : CmdWord) : (offer word s).rCap = s.rCap := rfl
@[simp] theorem drive_mode (cycles : List PortIn) : (drive cycles s).mode = s.mode := by cases cycles <;> rfl
@[simp] theorem offer_mode (word : CmdWord) : (offer word s).mode = s.mode := rfl
@[simp] theorem drive_inv (cycles : List PortIn) : (drive cycles s).inv = s.inv := by cases cycles <;> rfl
@[simp] theorem offer_inv (word : CmdWord) : (offer word s).inv = s.inv := rfl
@[simp] theorem drive_cap (cycles : List PortIn) : (drive cycles s).cap = s.cap := by cases cycles <;> rfl
@[simp] theorem offer_cap (word : CmdWord) : (offer word s).cap = s.cap := rfl
@[simp] theorem drive_seq (cycles : List PortIn) : (drive cycles s).seq = s.seq := by cases cycles <;> rfl
@[simp] theorem offer_seq (word : CmdWord) : (offer word s).seq = s.seq := rfl
@[simp] theorem drive_ill (cycles : List PortIn) : (drive cycles s).ill = s.ill := by cases cycles <;> rfl
@[simp] theorem offer_ill (word : CmdWord) : (offer word s).ill = s.ill := rfl

@[simp] theorem drive_cons_pins (p : PortIn) (rest : List PortIn) : (drive (p :: rest) s).pins = p := rfl
@[simp] theorem drive_cons_script (p : PortIn) (rest : List PortIn) : (drive (p :: rest) s).script = rest := rfl

/-! Equality of registers. -/

theorem SameRegisters.refl : SameRegisters s s := by simp [SameRegisters]

theorem SameRegisters.symm {s t : State} (h : SameRegisters s t) : SameRegisters t s := by
  simp_all [SameRegisters]

theorem SameRegisters.trans {s t u : State} (h : SameRegisters s t) (h' : SameRegisters t u) : SameRegisters s u := by
  simp_all [SameRegisters]

/-- Once the script is spent cycle by cycle, what the host drives is the rest of its list. -/
theorem nextCycle_drive_cons (p q : PortIn) (rest : List PortIn) :
    nextCycle (drive (p :: q :: rest) s) = drive (q :: rest) s := rfl

end Sys2Proof.Machine
end

