-- ==== Sys2Proof/Laws/Commands.lean ====
section
/-! SUPPORT. What each command, and one step, can do: one inversion lemma each, which later proofs cite instead of
unfolding. -/

namespace Sys2Proof.Machine

variable {s t : State}

/-- A push answers a next state in one of three ways (R112, R113). -/
theorem pushWith_cases {body : State → State} (h : pushWith body s = .next t) :
    (s.mode = .idle ∧ t = reportError .seq s) ∨ (s.mode = .aborted ∧ t = s) ∨ (s.mode = .active ∧ t = body s) := by
  unfold pushWith at h
  split at h <;> simp_all

/-- PUSHI's next states (R113). -/
theorem execPushi_cases {idx : SymIdx} (h : exec (.pushi idx) s = .next t) :
    (s.mode = .idle ∧ t = reportError .seq s) ∨ (s.mode = .aborted ∧ t = s) ∨
    (s.mode = .active ∧ t = packStep idx s) :=
  pushWith_cases h

/-- PUSHC's next states (R112). -/
theorem execPushc_cases {ch : CharCode} (h : exec (.pushc ch) s = .next t) :
    (s.mode = .idle ∧ t = reportError .seq s) ∨ (s.mode = .aborted ∧ t = s) ∨
    (s.mode = .active ∧ charOperand ch = none ∧ t = reportError .inv s) ∨
    (∃ idx, s.mode = .active ∧ charOperand ch = some idx ∧ t = packStep idx s) := by
  change execPushc ch s = .next t at h
  unfold execPushc at h
  rcases pushWith_cases h with h | h | ⟨hm, ht⟩
  · exact .inl h
  · exact .inr (.inl h)
  · cases hc : charOperand ch with
    | none => exact .inr (.inr (.inl ⟨hm, rfl, by simpa [hc] using ht⟩))
    | some idx => exact .inr (.inr (.inr ⟨idx, hm, rfl, by simpa [hc] using ht⟩))

/-- FINISH's next states (R114). -/
theorem execFinish_cases (h : exec .finish s = .next t) :
    (s.mode = .idle ∧ t = reportError .seq s) ∨ (s.mode = .aborted ∧ t = dropRun s) ∨
    (s.mode = .active ∧ t = commitRun s) := by
  change execFinish s = .next t at h
  unfold execFinish at h
  split at h <;> simp_all

theorem execNop_eq : exec .nop s = .next s := rfl

theorem execStart_eq : exec .start s = .next (beginRun s) := rfl

/-- PUSHC's operand by the Symbol Table (R82). -/
theorem charOperand_eq_some_iff {ch : CharCode} {idx : SymIdx} :
    charOperand ch = some idx ↔ symEncode ch = (true, idx) := by
  unfold charOperand
  rcases symEncode ch with ⟨_ | _, i⟩ <;> simp

theorem charOperand_eq_none_iff {ch : CharCode} : charOperand ch = none ↔ (symEncode ch).1 = false := by
  unfold charOperand
  rcases symEncode ch with ⟨_ | _, i⟩ <;> simp

/-- No command moves the host's ports. -/
theorem exec_ports {i : Instr} (h : exec i s = .next t) : t.pins = s.pins ∧ t.script = s.script := by
  cases i with
  | nop => cases h; simp
  | start => cases h; simp
  | pushc ch =>
    rcases execPushc_cases h with ⟨_, rfl⟩ | ⟨_, rfl⟩ | ⟨_, _, rfl⟩ | ⟨idx, _, _, rfl⟩ <;> simp
  | pushi idx => rcases execPushi_cases h with ⟨_, rfl⟩ | ⟨_, rfl⟩ | ⟨_, rfl⟩ <;> simp
  | finish => rcases execFinish_cases h with ⟨_, rfl⟩ | ⟨_, rfl⟩ | ⟨_, rfl⟩ <;> simp

/-! ### The handshake and the step -/

theorem acceptedWord_eq_some_iff {p : PortIn} {w : CmdWord} : acceptedWord p = some w ↔ p.Offers w := by
  unfold acceptedWord cmdReady PortIn.Offers
  rcases p with ⟨_ | _, _ | _, _⟩ <;> simp

theorem acceptedWord_eq_none_iff {p : PortIn} : acceptedWord p = none ↔ p.rst = true ∨ p.cmdValid = false := by
  unfold acceptedWord cmdReady
  rcases p with ⟨_ | _, _ | _, _⟩ <;> simp

theorem step_of_rst (h : s.pins.rst = true) : step s = .next (resetRegisters (nextCycle s)) := by
  simp [step, h]

theorem step_of_idle (h : s.pins.rst = false) (h' : s.pins.cmdValid = false) : step s = .next (nextCycle s) := by
  simp [step, h, acceptedWord_eq_none_iff.2 (.inr h')]

theorem step_of_offers {w : CmdWord} (h : s.pins.Offers w) :
    step s = match decode w with
      | .ok i => exec i (nextCycle s)
      | .error _ => execIllegal (nextCycle s) := by
  simp only [step, h.1, acceptedWord_eq_some_iff.2 h]
  cases decode w <;> rfl

/-- Everything one step can do: reset, an idle edge, a command, or an illegal word. -/
theorem step_cases (h : step s = .next t) :
    (s.pins.rst = true ∧ t = resetRegisters (nextCycle s)) ∨
    (s.pins.rst = false ∧ s.pins.cmdValid = false ∧ t = nextCycle s) ∨
    (∃ w i, s.pins.Offers w ∧ decode w = .ok i ∧ exec i (nextCycle s) = .next t) ∨
    (∃ w e, s.pins.Offers w ∧ decode w = .error e ∧ t = reportError .ill (nextCycle s)) := by
  cases hr : s.pins.rst with
  | true => exact .inl ⟨rfl, by simpa [step_of_rst hr, eq_comm] using h⟩
  | false =>
    cases hv : s.pins.cmdValid with
    | false => exact .inr (.inl ⟨rfl, rfl, by simpa [step_of_idle hr hv, eq_comm] using h⟩)
    | true =>
      have ho : s.pins.Offers s.pins.cmdWord := ⟨hr, hv, rfl⟩
      rw [step_of_offers ho] at h
      cases hd : decode s.pins.cmdWord with
      | ok i => exact .inr (.inr (.inl ⟨_, i, ho, hd, by simpa [hd] using h⟩))
      | error e =>
        refine .inr (.inr (.inr ⟨_, e, ho, hd, ?_⟩))
        simpa [hd, execIllegal, eq_comm] using h

/-- A run of n + 1 edges is one step and a run of n. -/
theorem run_succ_of_step {n : Nat} (h : step s = .next t) :
    Host.Core.run Sys2Proof.core (n + 1) s = Host.Core.run Sys2Proof.core n t := by
  have h' : Sys2Proof.core.step s = .next t := h
  simp only [Host.Core.run, h']

end Sys2Proof.Machine
end

