-- ==== Sys2Proof/Laws/Decode.lean ====
section
/-! SUPPORT. Command words as their fields: splitting and joining are inverse, and the decoder answers a command
exactly on legal fields. -/

namespace Sys2Proof

/-- Splitting the word of three fields gives them back. -/
theorem Fields.ofWord_toWord (f : Fields) : Fields.ofWord f.toWord = f := by
  cases f with
  | mk op rsv arg =>
    simp only [Fields.toWord, Fields.ofWord, Fields.mk.injEq]
    refine ⟨?_, ?_, ?_⟩ <;> apply BitVec.eq_of_getLsbD_eq <;> intro j hj <;>
      simp only [BitVec.getLsbD_append, BitVec.getLsbD_extractLsb', hj, decide_true, Bool.true_and]
    · simp [show ¬ 12 + j < 8 by omega, show ¬ 12 + j - 8 < 4 by omega, show 12 + j - 8 - 4 = j by omega]
    · simp [show ¬ 8 + j < 8 by omega, show 8 + j - 8 = j by omega]; omega
    · simp [hj]

/-- Joining the fields of a word gives it back. -/
theorem Fields.toWord_ofWord (w : CmdWord) : (Fields.ofWord w).toWord = w := by
  apply BitVec.eq_of_getLsbD_eq
  intro j hj
  simp only [Fields.toWord, Fields.ofWord, BitVec.getLsbD_append, BitVec.getLsbD_extractLsb']
  by_cases h8 : j < 8
  · simp [h8]
  · by_cases h12 : j - 8 < 4
    · simp [h8, h12, show 8 + (j - 8) = j by omega]
    · simp [h8, h12, show j - 8 - 4 < 4 by omega, show 12 + (j - 8 - 4) = j by omega]

/-- The decoder answers a command exactly on the legal fields (R62, R64). -/
theorem decodeFields_isOk_iff_legal (f : Fields) : (decodeFields f).isOk = f.legal := by
  obtain ⟨op, rsv, arg⟩ := f
  by_cases hop : 4 < op.toNat
  · simp [decodeFields, Fields.legal, hop, Except.isOk, Except.toBool, show ¬ op.toNat ≤ 4 by omega]
  by_cases hr : rsv = 0
  · have hle : op.toNat ≤ 4 := by omega
    subst hr
    simp only [decodeFields, Fields.legal, hop, hle, if_false]
    by_cases h2 : op = 2 <;> by_cases h3 : op = 3 <;> by_cases h0 : op = 0 <;> by_cases h1 : op = 1 <;>
      by_cases ha : arg = 0 <;> by_cases h5 : arg.extractLsb' 5 3 = 0 <;>
      simp_all [Except.isOk, Except.toBool]
  · have hb : (rsv == 0) = false := by simpa using hr
    simp only [decodeFields, Fields.legal, hop, hb, if_false, if_pos hr]
    simp [Except.isOk, Except.toBool]

end Sys2Proof
end

