-- ==== Sys2Proof/Laws/PerInstr.lean ====
section
/-! SUPPORT. Facts about every command as syntax, one lemma per constructor. -/

namespace Sys2Proof.Laws.EncodesToTableRow

/-- The word of a command belongs to the opcode map's row of its mnemonic, and to no other row (30_encoding.md R62). -/
def Statement (i : Instr) : Prop :=
  ∀ row ∈ opcodeRows, row.matches (encode i) = true ↔ row.mnemonic = i.mnemonic

theorem nop : Statement .nop := by unfold Statement; decide

theorem start : Statement .start := by unfold Statement; decide

theorem pushc (ch : CharCode) : Statement (.pushc ch) := by
  unfold Statement; revert ch; decide

theorem pushi (idx : SymIdx) : Statement (.pushi idx) := by
  unfold Statement; revert idx; decide

theorem finish : Statement .finish := by unfold Statement; decide

end Sys2Proof.Laws.EncodesToTableRow
end

