-- ==== Sys2Proof/Laws/Ports.lean ====
section
/-! SUPPORT. The character lanes of the 80-bit ports, and the bits of the status port. -/

namespace Sys2Proof.Machine

variable (acc : BitVec 80) (c : CharCode)

/-- The last character packed is in the lowest 8 bits (20_memory.md R53). -/
theorem lane_last : (acc <<< 8 ||| c.setWidth 80).extractLsb' 0 8 = c := by
  apply BitVec.eq_of_getLsbD_eq
  intro j hj
  simp [hj, show j < 80 by omega]

/-- Every earlier character moves 8 bits up. -/
theorem lane_earlier {n : Nat} (h : 8 ≤ n) (h' : n + 8 ≤ 80) :
    (acc <<< 8 ||| c.setWidth 80).extractLsb' n 8 = acc.extractLsb' (n - 8) 8 := by
  apply BitVec.eq_of_getLsbD_eq
  intro j hj
  have hc : c.getLsbD (n + j) = false := BitVec.getLsbD_of_ge _ _ (by omega)
  simp [hj, show n + j < 80 by omega, show ¬ n + j < 8 by omega, hc, show n + j - 8 = n - 8 + j by omega]
  rw [BitVec.getLsbD_eq_getElem]

/-- A digit of a binary-digit string (00_scope.md R15). -/
theorem binaryString_getElem? (x : Word) {k : Nat} (hk : k < 32) :
    (binaryString x)[k]? = some (digit (x.getLsbD (31 - k))) := by
  simp [binaryString, hk]

end Sys2Proof.Machine
end

