-- ==== Sys2Proof/Tests/Slice0.lean ====
section
/-! SUPPORT. The model's own tests, expected values from the spec's examples and vectors, and for every statement with
hypotheses a concrete instance that meets them. -/

namespace Sys2Proof.Tests

open Sys2Proof.Machine

/-! ### Helpers -/

/-- The outcome is a next state with this property. -/
def nextIs (o : Host.Outcome State Fault Refusal) (p : State → Bool) : Bool :=
  match o with
  | .next s => p s
  | .fault _ => false
  | .refused _ => false

/-- The outcome is a fault. -/
def stops (o : Host.Outcome State Fault Refusal) : Bool :=
  match o with
  | .fault _ => true
  | _ => false

/-- The decoder's answer as plain data. -/
def decoded (w : CmdWord) : Option Instr :=
  match decode w with
  | .ok i => some i
  | .error _ => none

/-- The reset state in another mode. -/
def inMode (m : Mode) : State := { State.reset with mode := m }

/-- A run in progress with these working registers. -/
def packing (p : Word) (pc : Cursor) (s : Word) (sc : Cursor) : State :=
  { State.reset with mode := .active, w := ⟨p, pc, s, sc⟩ }

/-- A state with this result. -/
def showing (p s : Word) (sc : Cursor) : State := { State.reset with r := ⟨p, 0, s, sc⟩ }

/-- One pin sample that offers a word. -/
def offering (w : CmdWord) : PortIn := { PortIn.quiet with cmdValid := true, cmdWord := w }

/-- One pin sample with reset. -/
def resetting : PortIn := { PortIn.quiet with rst := true }

/-! ### WellFormed: one ill-formed term for each check -/

theorem test_asm_refuses_bad_char : (Asm.pushcChar 'é').wellFormed = false := by decide
theorem test_asm_refuses_bad_code : (Asm.pushcCode 256).wellFormed = false := by decide
theorem test_asm_refuses_bad_index : (Asm.pushi 32).wellFormed = false := by decide
theorem test_asm_refuses_bad_word : (Asm.word 65536).wellFormed = false := by decide
theorem test_asm_refuses_bad_string : (Asm.pack ['B', 'é']).wellFormed = false := by decide
theorem test_asm_refuses_bad_indices : (Asm.packi [0, 32]).wellFormed = false := by decide
theorem test_asm_refuses_no_index : (Asm.packi []).wellFormed = false := by decide
theorem test_fields_refuse_bad_op : (Fields.mk 5 0 0).legal = false := by decide
theorem test_fields_refuse_bad_rsv : (Fields.mk 2 1 0x47).legal = false := by decide
theorem test_fields_refuse_bad_arg :
    (Fields.mk 0 0 1).legal = false ∧ (Fields.mk 1 0 1).legal = false ∧ (Fields.mk 4 0 1).legal = false := by decide
theorem test_fields_refuse_bad_index : (Fields.mk 3 0 0x20).legal = false := by decide

/-! ### Decoding: words written from the encodings of R62, bit 15 first -/

theorem test_decode_nop : decoded 0b0000000000000000 = some .nop := by decide
theorem test_decode_start : decoded 0b0001000000000000 = some .start := by decide
theorem test_decode_pushc :
    decoded 0b0010000001000111 = some (.pushc 0b01000111) ∧ decoded 0b0010000011111111 = some (.pushc 0xFF) := by decide
theorem test_decode_pushi :
    decoded 0b0011000000011111 = some (.pushi 0b11111) ∧ decoded 0b0011000000010000 = some (.pushi 16) := by decide
theorem test_decode_finish : decoded 0b0100000000000000 = some .finish := by decide

/-- The illegal words of T-CMD rows 16 to 21, and opcodes at the ends of R65's range. -/
theorem test_decode_illegal :
    [0x5000, 0x0001, 0x0100, 0x3020, 0x4001, 0xF000, 0x2147, 0x30FF].all (fun w => decoded w == none) = true := by decide

theorem test_rows_do_not_overlap :
    opcodeRows.Pairwise (fun a b => a.fixed &&& b.mask ≠ b.fixed &&& a.mask) := by decide

theorem test_table_words :
    [0x0000, 0x1000, 0x2000, 0x3000, 0x4000].map (decodeTableWord 16) =
      [some .nop, some .start, some (.pushc 0), some (.pushi 0), some .finish] := by decide

/-- The first step after reset runs the offered word: START begins a run, and a push sets SEQ. -/
theorem test_first_step :
    nextIs (step (State.reset.withFetchWord 16 0x1000)) (fun t => t.mode == .active) = true ∧
    nextIs (step (State.reset.withFetchWord 16 0x3001)) (fun t => t.seq && status t == 0x10) = true := by decide

/-! ### Commands: rows of T-CMD -/

theorem test_nop : nextIs (exec .nop (packing 0x45000000 8 0 0)) (fun t => t == packing 0x45000000 8 0 0) = true := by
  decide

/-- Row 2. -/
theorem test_start :
    nextIs (exec .start { inMode .idle with seq := true, w := ⟨0x45000000, 8, 0, 0⟩ })
      (fun t => t.w == ⟨0, 0, 0, 0⟩ && t.mode == .active && !t.seq) = true := by decide

/-- Rows 3 and 4. -/
theorem test_pushc :
    nextIs (exec (.pushc 0x47) (packing 0 0 0 0)) (fun t => t.w == ⟨0x40000000, 4, 0, 0⟩) = true ∧
    nextIs (exec (.pushc 0x67) (packing 0 4 0 0)) (fun t => t.inv && t.mode == .aborted && t.w == ⟨0, 4, 0, 0⟩) = true := by
  decide

/-- Rows 6 and 9. -/
theorem test_pushc_outside_a_run :
    nextIs (exec (.pushc 0x67) { inMode .aborted with inv := true }) (fun t => t == { inMode .aborted with inv := true })
      = true ∧
    nextIs (exec (.pushc 0x67) (inMode .idle)) (fun t => t == { inMode .idle with seq := true }) = true := by decide

/-- Rows 13 and 14. -/
theorem test_finish_commits :
    nextIs (exec .finish (packing 0x40000000 4 0 0))
      (fun t => t.r == ⟨0x40000000, 4, 0, 0⟩ && t.rValid && !t.rCap && t.mode == .idle) = true ∧
    nextIs (exec .finish { packing 0xFFFFFFFF 35 0xFFFFFFFF 33 with cap := true })
      (fun t => t.r == ⟨0xFFFFFFFF, 35, 0xFFFFFFFF, 33⟩ && t.rCap) = true := by decide

/-- Rows 7 and 11. -/
theorem test_finish_without_a_result :
    nextIs (exec .finish { inMode .aborted with r := ⟨0x45000000, 8, 0, 0⟩ })
      (fun t => t.mode == .idle && t.r.p == 0x45000000 && !t.rValid) = true ∧
    nextIs (exec .finish (inMode .idle)) (fun t => t.seq && !t.rValid) = true := by decide

/-- Rows 19 and 22: an illegal word sets ILL only, and reset discards the word. -/
theorem test_illegal_and_reset :
    nextIs (step (offer 0x3020 (packing 0 4 0 0))) (fun t => t.ill && t.w.pc == 4 && !t.seq) = true ∧
    nextIs (step { packing 0x40000000 4 0 0 with pins := { offering 0x301F with rst := true } })
      (fun t => t.w == .empty && t.mode == .idle) = true := by decide

/-- A row of T-PACK: the working registers, the index, the working registers after, CAP after. -/
structure PackRow where
  before : PackedStream
  idx : SymIdx
  after : PackedStream
  cap : Bool

/-- T-PACK, rows 1 to 17. -/
def packRows : List PackRow :=
  [⟨⟨0, 0, 0, 0⟩, 4, ⟨0x40000000, 4, 0, 0⟩, false⟩,
   ⟨⟨0, 0, 0, 0⟩, 31, ⟨0xF8000000, 5, 0, 0⟩, false⟩,
   ⟨⟨0x45000000, 8, 0, 0⟩, 0, ⟨0x45000000, 12, 0, 0⟩, false⟩,
   ⟨⟨0xFFFFFFF0, 28, 0, 0⟩, 15, ⟨0xFFFFFFFF, 32, 0, 0⟩, false⟩,
   ⟨⟨0xFFFFFFF0, 28, 0, 0⟩, 0, ⟨0xFFFFFFF0, 32, 0, 0⟩, false⟩,
   ⟨⟨0xFFFFFFF0, 28, 0, 0⟩, 31, ⟨0xFFFFFFFF, 33, 0x80000000, 1⟩, false⟩,
   ⟨⟨0x84210840, 30, 0, 0⟩, 15, ⟨0x8421084F, 34, 0xC0000000, 2⟩, false⟩,
   ⟨⟨0xFFFFFFFC, 30, 0, 0⟩, 31, ⟨0xFFFFFFFF, 35, 0xE0000000, 3⟩, false⟩,
   ⟨⟨0x11118420, 31, 0, 0⟩, 31, ⟨0x1111843F, 36, 0xF0000000, 4⟩, false⟩] ++
  [⟨⟨0xFFFFFFF0, 28, 0, 0⟩, 16, ⟨0xFFFFFFF0, 33, 0, 1⟩, false⟩,
   ⟨⟨0xFFFFFFFC, 30, 0, 0⟩, 0, ⟨0xFFFFFFFC, 34, 0, 2⟩, false⟩,
   ⟨⟨0xFFFFFFFF, 35, 0xE0000000, 3⟩, 31, ⟨0xFFFFFFFF, 35, 0xFF000000, 8⟩, false⟩,
   ⟨⟨0x11111111, 32, 0, 0⟩, 8, ⟨0x11111111, 32, 0x80000000, 4⟩, false⟩,
   ⟨⟨0x11111111, 32, 0x11111840, 30⟩, 4, ⟨0x11111111, 32, 0x11111844, 34⟩, false⟩,
   ⟨⟨0xFFFFFFFF, 35, 0xFFFFFFF0, 28⟩, 31, ⟨0xFFFFFFFF, 35, 0xFFFFFFFF, 33⟩, false⟩,
   ⟨⟨0x11111111, 32, 0x11111111, 32⟩, 31, ⟨0x11111111, 32, 0x11111111, 32⟩, true⟩,
   ⟨⟨0xFFFFFFFF, 35, 0xFFFFFFFF, 33⟩, 0, ⟨0xFFFFFFFF, 35, 0xFFFFFFFF, 33⟩, true⟩]

theorem test_pushi_rows :
    packRows.all (fun row => nextIs (exec (.pushi row.idx) { inMode .active with w := row.before })
      (fun t => t.w == row.after && t.cap == row.cap && t.mode == .active)) = true := by decide

/-- Row 10. -/
theorem test_pushi_outside_a_run : nextIs (exec (.pushi 1) (inMode .idle)) (fun t => t.seq && t.w == .empty) = true := by
  decide

/-! ### Ports: T-SYM, T-RPT, T-CAN, T-DIF -/

theorem test_symbols :
    [0x42, 0x54, 0x41, 0x20, 0x3E, 0x67, 0x30, 0x00, 0xFF].map symEncode =
      [(true, 0), (true, 15), (true, 16), (true, 21), (true, 31), (false, 0), (false, 0), (false, 0), (false, 0)] ∧
    [0, 16, 21, 31].map symDecode = [0x42, 0x41, 0x20, 0x3E] := by decide

/-- T-RPT, all ten rows: R_P, R_S, R_SC, then res_s_shifted and res_xor. -/
theorem test_report_rows :
    [(0x00000000, 0x00000000, 0, 0x00000000, 0x00000000), (0x40000000, 0x00000000, 0, 0x00000000, 0x40000000),
     (0xFFFFFFFF, 0x80000000, 1, 0x00000001, 0xFFFFFFFE), (0xFFFFFFF0, 0x00000000, 1, 0x00000000, 0xFFFFFFF0),
     (0xFFFFFFFF, 0xE0000000, 3, 0x00000007, 0xFFFFFFF8), (0x01234567, 0x89000000, 8, 0x00000089, 0x012345EE),
     (0x84653A56, 0xD7C64000, 18, 0x00035F19, 0x8466654F), (0x11111111, 0x11111111, 32, 0x11111111, 0x00000000),
     (0xFFFFFFFF, 0xFFFFFFFF, 33, 0xFFFFFFFF, 0x00000000), (0x11111111, 0xFFFFFFFF, 35, 0xFFFFFFFF, 0xEEEEEEEE)].all
      (fun (p, s, sc, sh, x) => resSShifted (showing p s sc) == sh && resXor (showing p s sc) == x) = true := by decide

/-- T-CAN: the first eight characters. -/
theorem test_canonical_rows :
    (List.range 8).map (canonChar 0x84653A56) = ['L', 'G', 'J', 'H', 'F', 'N', 'H', 'J'].map charCode ∧
    (List.range 8).map (canonChar 0x89ABCDEF) = ['L', 'M', 'N', 'P', 'Q', 'R', 'S', 'T'].map charCode ∧
    (List.range 8).map (canonChar 0x01234567) = [0x42, 0x43, 0x44, 0x46, 0x47, 0x48, 0x4A, 0x4B] := by decide

/-- T-DIF. -/
theorem test_differ_rows :
    [(0x12345678, 0x12345678, 0xFFFFFFFF, 0x00000000, true), (0x00000000, 0xFFFFFFFF, 0x00000000, 0xFFFFFFFF, false),
     (0x80000001, 0x00000000, 0x7FFFFFFE, 0x80000001, false), (0x0000FFFF, 0x00FF00FF, 0xFF0000FF, 0x00FFFF00, false),
     (0x40000000, 0x45000000, 0xFAFFFFFF, 0x05000000, false)].all
      (fun (a, b, m, x, e) => diffMatch a b == m && diffXor a b == x && diffEq a b == e) = true := by decide

/-- T-DIF, the pairs of the third row. -/
theorem test_differ_pairs :
    diffPairs 0x80000001 0x00000000 = ('0', false) :: List.replicate 30 ('0', true) ++ [('0', false)] := by decide

theorem test_status_word :
    status { inMode .aborted with inv := true, rValid := true } = 0x46 ∧
    status { inMode .idle with cap := true, rValid := true, rCap := true } = 0xC8 := by decide

/-- P6 after its ninth push: nine narrow symbols, 36 bits, the ninth in the secondary with no spill (log 14). -/
theorem test_pack_after_exact_fill :
    pack [0, 1, 2, 3, 4, 5, 6, 7, 8] = (⟨0x01234567, 32, 0x80000000, 4⟩, false) := by decide

/-! ### Assembler -/

/-- P5, P6 and R70 as text. -/
theorem test_assemble :
    assemble ['P', 'U', 'S', 'H', 'I', ' ', '1', ' ', ' ', ';', ' ', '3', '0', '0', '1', '\n',
        '.', 'w', 'o', 'r', 'd', ' ', '0', 'x', '5', '0', '0', '0', '\n', '\n', 'S', 'T', 'A', 'R', 'T'] =
      some [0x3001, 0x5000, 0x1000] ∧
    assemble ['P', 'A', 'C', 'K', ' ', '"', 'G', ' ', ';', '"'] = some [0x1000, 0x2047, 0x2020, 0x203B, 0x4000] ∧
    assemble ['P', 'A', 'C', 'K', 'I', ' ', '1', '6', ',', ' ', '0', 'x', '1'] = some [0x1000, 0x3010, 0x3001, 0x4000] ∧
    assemble ['P', 'U', 'S', 'H', 'C', ' ', '\'', 'g', '\''] = some [0x2067] := by decide

theorem test_assemble_refuses :
    assemble ['P', 'U', 'S', 'H', 'I', ' ', '3', '2'] = none ∧ assemble ['n', 'o', 'p'] = none := by decide

/-- The choices of log 8: a quoted quote or semicolon before a comment, digits beyond R68's two, a double quote inside
a string. -/
theorem test_assemble_quotes_and_digits :
    assemble ['P', 'U', 'S', 'H', 'C', ' ', '\'', '\'', '\'', ' ', ';', ' ', 'q'] = some [0x2027] ∧
    assemble ['P', 'U', 'S', 'H', 'C', ' ', '\'', ';', '\'', ';'] = some [0x203B] ∧
    assemble ['P', 'U', 'S', 'H', 'C', ' ', '0', 'x', '0', '4', '1'] = some [0x2041] ∧
    assemble ['P', 'A', 'C', 'K', ' ', '"', 'B', '"', 'B', '"'] = none := by decide

/-! ### Witnesses: for every statement with hypotheses, an instance that meets them -/

theorem witness_EncodeOfDecodeIsTheWord : decode 0x2047 = .ok (.pushc 0x47) := rfl

theorem witness_WordsDecodeByMatchAndMask :
    (OpcodeRow.mk "PUSHC" 0x2000 0xFF00) ∈ opcodeRows ∧ (OpcodeRow.mk "PUSHC" 0x2000 0xFF00).matches 0x20FF = true := by
  decide

theorem witness_IllegalWordSetsOnlyIll :
    (offer 0x5000 (inMode .active)).pins.Offers 0x5000 ∧ decode 0x5000 = .error .reservedOp ∧
    decode 0x0100 = .error .reservedField ∧ decode 0x40FF = .error .strayArgument ∧
    decode 0x3020 = .error .strayIndexBits := ⟨⟨rfl, rfl, rfl⟩, rfl, rfl, rfl, rfl⟩

theorem witness_LegalWordsAreTwoHundredNinetyOne :
    5 ≤ ((0x5000 : CmdWord).extractLsb' 12 4).toNat ∧ 5 ≤ ((0xFFFF : CmdWord).extractLsb' 12 4).toNat := by decide

theorem witness_PackLinesExpandToRuns : (Asm.packi [0, 31]).wellFormed = true := by decide

theorem witness_StepRunsTheDecodedCommand :
    (offer 0x301F (inMode .active)).pins.Offers 0x301F ∧ decode 0x301F = .ok (.pushi 31) ∧
    (offer 0x301F (inMode .active)).script = [] ∧
    (drive [offering 0x301F, offering 0x4000] (inMode .active)).script = [offering 0x4000] :=
  ⟨⟨rfl, rfl, rfl⟩, rfl, rfl, rfl⟩

theorem witness_CommandAcceptedExactlyWhenValidAndReady :
    ({ inMode .active with pins := resetting } : State).pins.rst = true ∧
    ((inMode .active).pins.cmdValid = false ∧ (inMode .active).pins.rst = false) ∧
    ((offer 0x301F (inMode .active)).pins.cmdValid = true ∧ (outputs (offer 0x301F (inMode .active))).cmdReady = true ∧
      decode (offer 0x301F (inMode .active)).pins.cmdWord = .ok (.pushi 31)) ∧
    ((offer 0x5000 (inMode .active)).pins.cmdValid = true ∧ (outputs (offer 0x5000 (inMode .active))).cmdReady = true ∧
      decode (offer 0x5000 (inMode .active)).pins.cmdWord = .error .reservedOp) :=
  ⟨rfl, ⟨rfl, rfl⟩, ⟨rfl, rfl, rfl⟩, rfl, rfl, rfl⟩

theorem witness_ResetEdgeSetsEveryRegister :
    ({ packing 0x45000000 8 0 0 with pins := resetting } : State).pins.rst = true := rfl

theorem witness_NopChangesNothing :
    (0x0001 : CmdWord).extractLsb' 12 4 = 0x0 ∧ (0x0001 : CmdWord) ≠ 0x0000 := by decide

theorem witness_PushcByMode :
    (inMode .idle).mode = .idle ∧ (inMode .aborted).mode = .aborted ∧ (inMode .active).mode = .active ∧
    (symEncode 0x67).1 = false ∧ symEncode 0x3E = (true, 31) := by decide

theorem witness_PushiByMode :
    (inMode .idle).mode = .idle ∧ (inMode .aborted).mode = .aborted ∧ (inMode .active).mode = .active := by decide

theorem witness_FinishByMode :
    (inMode .idle).mode = .idle ∧ (inMode .aborted).mode = .aborted ∧ (packing 0x40000000 4 0 0).mode = .active := by
  decide

/-- The boundary: the symbol fills the primary exactly. -/
theorem witness_FittingSymbolStandsBelowTheWrittenBits :
    (packing 0xFFFFFFF0 28 0 0).mode = .active ∧ (packing 0xFFFFFFF0 28 0 0).w.pc.toNat + width 15 = 32 := by decide

/-- The boundaries: spills of 1 bit and of 4 bits. -/
theorem witness_CrossingSymbolSpills :
    ((packing 0xFFFFFFF0 28 0 0).w.pc.toNat < 32 ∧ (packing 0xFFFFFFF0 28 0 0).w.pc.toNat + width 31 = 33) ∧
    ((packing 0x11118420 31 0 0).mode = .active ∧ (packing 0x11118420 31 0 0).w.pc.toNat < 32 ∧
      (packing 0x11118420 31 0 0).w.pc.toNat + width 31 = 36) := by decide

/-- The boundaries: the secondary empty, and one bit short of saturated. -/
theorem witness_SecondaryTakesTheSymbol :
    ((packing 0x11111111 32 0 0).mode = .active ∧ (packing 0x11111111 32 0 0).w.pc.toNat = 32 ∧
      (packing 0x11111111 32 0 0).w.sc.toNat = 0) ∧
    ((packing 0xFFFFFFFF 36 0xFFFFFFFE 31).mode = .active ∧ 32 ≤ (packing 0xFFFFFFFF 36 0xFFFFFFFE 31).w.pc.toNat ∧
      (packing 0xFFFFFFFF 36 0xFFFFFFFE 31).w.sc.toNat = 31) := by decide

theorem witness_FullRunDropsSymbols :
    (packing 0x11111111 32 0x11111111 32).mode = .active ∧ (packing 0x11111111 32 0x11111111 32).w.pc.toNat = 32 ∧
    (packing 0x11111111 32 0x11111111 32).w.sc.toNat = 32 ∧ symEncode 0x47 = (true, 4) := by decide

theorem witness_PushcOfAlphabetCharacterIsPushi : symEncode 0x47 = (true, 4) ∧ symEncode 0x3E = (true, 31) := by decide

theorem witness_ReservedModeStopsModeReaders :
    (inMode .reserved).mode = .reserved ∧ stops (exec (.pushi 0) (inMode .reserved)) = true := by decide

theorem witness_EveryCommandCompletes : (inMode .active).mode ≠ .reserved := by decide

/-- A step that raises INV; one in each premise of the priority statement. -/
theorem witness_OneCommandSetsAtMostOneFlag :
    nextIs (step (offer 0x2067 (inMode .active))) (fun t => errorFlag .inv t) = true ∧
    errorFlag .inv (offer 0x2067 (inMode .active)) = false ∧ decode 0x2067 = .ok (.pushc 0x67) ∧
    nextIs (step { inMode .active with pins := resetting }) (fun _ => true) = true ∧
    nextIs (step (offer 0x5000 (inMode .idle))) (fun _ => true) = true ∧
    nextIs (step (offer 0x4000 (inMode .idle))) (fun _ => true) = true ∧ decode 0x4000 = .ok .finish ∧
    nextIs (step (offer 0x301F (inMode .aborted))) (fun _ => true) = true ∧ decode 0x301F = .ok (.pushi 31) ∧
    nextIs (step (offer 0x301F (packing 0 32 0 32))) (fun t => t.cap) = true :=
  ⟨by decide, by decide, rfl, by decide, by decide, by decide, rfl, by decide, rfl, by decide⟩

theorem witness_FlagsClearOnlyAtStartOrReset :
    (offer 0x1000 { inMode .idle with seq := true }).pins.Offers 0x1000 ∧
    errorFlag .seq (offer 0x1000 { inMode .idle with seq := true }) = true ∧
    nextIs (step (offer 0x1000 { inMode .idle with seq := true })) (fun t => !errorFlag .seq t) = true ∧
    ({ inMode .idle with seq := true, pins := resetting } : State).pins.rst = true :=
  ⟨⟨rfl, rfl, rfl⟩, rfl, by decide, rfl⟩

/-- FINISH in an aborted run: neither of the excepted edges. -/
theorem witness_ResultsChangeOnlyAtCommitOrReset :
    nextIs (step (offer 0x4000 (inMode .aborted))) (fun _ => true) = true ∧
    (offer 0x4000 (inMode .aborted)).pins.rst = false ∧ (offer 0x4000 (inMode .aborted)).mode ≠ .active := by decide

theorem witness_WorkingRegistersHaveFourWriters :
    nextIs (step (offer 0x3000 (packing 0 0 0 0))) (fun t => t.w != (packing 0 0 0 0).w) = true := by decide

theorem witness_ModeMovesAlongTheRunDiagram :
    nextIs (step (offer 0x4000 (inMode .active))) (fun t => t.mode == .idle) = true ∧
    nextIs (step (offer 0x1000 (inMode .idle))) (fun t => t.mode == .active) = true ∧
    nextIs (step (offer 0x2067 (inMode .active))) (fun t => t.mode == .aborted) = true := by decide

theorem witness_RisingFlagHasItsCause :
    nextIs (step (offer 0x2067 (inMode .active))) (fun t => errorFlag .inv t) = true ∧
    nextIs (step (offer 0x3000 (packing 0 36 0 36))) (fun t => errorFlag .cap t) = true ∧
    nextIs (step (offer 0x4000 (inMode .idle))) (fun t => errorFlag .seq t) = true ∧
    nextIs (step (offer 0xFFFF (inMode .idle))) (fun t => errorFlag .ill t) = true := by decide

theorem witness_PackingNeverClearsABit :
    nextIs (step (offer 0x301F (packing 0xFFFFFFF0 28 0 0))) (fun t => t.w.p.getLsbD 31) = true ∧
    (offer 0x301F (packing 0xFFFFFFF0 28 0 0)).pins.rst = false ∧
    (offer 0x301F (packing 0xFFFFFFF0 28 0 0)).pins.cmdWord ≠ 0x1000 ∧
    (packing 0xFFFFFFF0 28 0 0).w.p.getLsbD 31 = true := by decide

/-- A consistent state of a run in progress, after the symbol of index 4, and a step of it. -/
theorem witness_EveryStepKeepsConsistency :
    (packing 0x40000000 4 0 0).Consistent ∧ nextIs (step (packing 0x40000000 4 0 0)) (fun _ => true) = true := by
  refine ⟨⟨by decide, ?_, wellPacked_empty, by decide, by decide, by decide, by decide,
    fun h => absurd h (by decide), fun h => absurd h (by decide)⟩, by decide⟩
  exact ⟨by decide, by decide, by decide, by decide, by decide, by decide, by decide⟩

theorem witness_BlockNeverStopsAfterReset :
    ({ inMode .reserved with pins := resetting, script := [offering 0x4000] } : State).pins.rst = true := rfl

/-- Below 32 bits, and exactly 32. -/
theorem witness_CursorsCountThePackedBits :
    (pack [31]).2 = false ∧ totalWidth [31] < 32 ∧ (pack (List.replicate 8 15)).2 = false ∧
    totalWidth (List.replicate 8 15) = 32 := by decide

/-- 13 symbols, 17 symbols, all wide, all narrow. -/
theorem witness_RunHoldsThirteenToSixteenSymbols :
    (List.replicate 13 (31 : SymIdx)).length ≤ 13 ∧ 17 ≤ (List.replicate 17 (0 : SymIdx)).length ∧
    (∀ i ∈ List.replicate 14 (16 : SymIdx), 16 ≤ i.toNat) ∧ (∀ i ∈ List.replicate 16 (15 : SymIdx), i.toNat < 16) := by
  decide

/-- START, an idle cycle, PUSHC 'G', NOP, PUSHI 31, FINISH. -/
theorem witness_RunCommitsThePackedStream :
    (∀ p ∈ [offering 0x1000, .quiet, offering 0x2047, offering 0x0000, offering 0x301F, offering 0x4000],
      p.rst = false) ∧
    acceptedWords [offering 0x1000, .quiet, offering 0x2047, offering 0x0000, offering 0x301F, offering 0x4000] =
      0x1000 :: [0x2047, 0x301F] ++ [0x4000] ∧
    List.Forall₂ (fun w i => w = encode (.pushi i) ∨ ∃ ch, symEncode ch = (true, i) ∧ w = encode (.pushc ch))
      [0x2047, 0x301F] [4, 31] :=
  ⟨by decide, by decide, .cons (.inr ⟨0x47, by decide, by decide⟩) (.cons (.inl (by decide)) .nil)⟩

/-- The run of P4. -/
theorem witness_InvalidCharacterKeepsThePreviousResult :
    (∀ p ∈ offers [0x1000, 0x2042, 0x2067, 0x2043, 0x4000], p.rst = false) ∧
    acceptedWords (offers [0x1000, 0x2042, 0x2067, 0x2043, 0x4000]) =
      encode .start :: [Instr.pushc 0x42, .pushc 0x67, .pushc 0x43].map encode ++ [encode .finish] ∧
    Instr.pushc 0x67 ∈ [Instr.pushc 0x42, .pushc 0x67, .pushc 0x43] ∧ (symEncode 0x67).1 = false := by decide

theorem witness_SingleSymbolRunIsLeftJustified : (15 : SymIdx).toNat < 16 ∧ 16 ≤ (16 : SymIdx).toNat := by decide

theorem witness_ExactFillDoesNotSpill :
    totalWidth [16, 16, 16, 16, 1, 1, 1] = 32 ∧ (∀ i ∈ List.replicate 8 (15 : SymIdx), i.toNat < 16) := by decide

/-- A sum of 33 with a spill, of 36 with a spill, and of 36 with the primary exactly full before the last symbol. -/
theorem witness_OverflowingRunEndsInTheSecondary :
    (totalWidth [15, 15, 15, 15, 15, 15, 15] ≤ 32 ∧ totalWidth ([15, 15, 15, 15, 15, 15, 15] ++ [31]) = 33) ∧
    (totalWidth [1, 1, 1, 1, 16, 16, 16] = 31 ∧ totalWidth ([1, 1, 1, 1, 16, 16, 16] ++ [31]) = 36) ∧
    (totalWidth (List.replicate 8 1) = 32 ∧ totalWidth (List.replicate 8 1 ++ [9]) = 36) := by decide

theorem witness_NarrowSymbolsComeBackCanonical :
    ([0, 1, 2, 3, 4, 5, 6, 15] : List SymIdx).length = 8 ∧ (∀ i ∈ ([0, 1, 2, 3, 4, 5, 6, 15] : List SymIdx), i.toNat < 16) ∧
    ([0, 1, 2, 3, 4, 5, 6, 16] : List SymIdx)[7]? = some 16 ∧ 16 ≤ (16 : SymIdx).toNat := by decide

theorem witness_StartForgetsThePast : (offering 0x1000).Offers 0x1000 := ⟨rfl, rfl, rfl⟩

theorem witness_StatusPortLayout : (inMode .active).pins.rst = false ∧ (inMode .active).pins.cmdValid = false := by decide

/-- R_SC at 0, 1, 32, 33 and 36. -/
theorem witness_ShiftedSecondaryIsRightJustified :
    (showing 0 0 0).r.sc = 0 ∧ (showing 0 0 1).r.sc.toNat = 1 ∧ (showing 0 0 32).r.sc.toNat = 32 ∧
    (showing 0 0 33).r.sc.toNat = 33 ∧ (showing 0 0 36).r.sc.toNat = 36 := by decide

theorem witness_CanonicalFormIsInjective : (canonOut 0).extractLsb' 16 64 = (canonOut 0).extractLsb' 16 64 := rfl

theorem witness_DifferIsReflexiveAndSymmetric :
    State.reset.pins.diffA = State.reset.pins.diffB ∧
    ({ PortIn.quiet with diffA := 5, diffB := 3 }).diffA = ({ PortIn.quiet with diffA := 3, diffB := 5 }).diffB ∧
    ({ PortIn.quiet with diffA := 5, diffB := 3 }).diffB = ({ PortIn.quiet with diffA := 3, diffB := 5 }).diffA := by
  decide

theorem witness_SymbolTableIsInvertible :
    ({ PortIn.quiet with encChar := 0x3E }).encChar = (outputs { State.reset with pins := { PortIn.quiet with decIdx := 31 } }).decChar ∧
    (outputs { State.reset with pins := { PortIn.quiet with encChar := 0x3E } }).encValid = true ∧
    ({ PortIn.quiet with decIdx := 31 }).decIdx =
      (outputs { State.reset with pins := { PortIn.quiet with encChar := 0x3E } }).encIdx := by decide

theorem witness_AlphabetIsTheThirtyTwoCodes :
    symDecode 31 = symDecode 31 ∧ (0x41 : CharCode).toNat = 0x41 ∧ (0x5A : CharCode).toNat = 0x5A ∧
    (0x7A : CharCode).toNat = 0x7A ∧ (0x39 : CharCode).toNat = 0x39 := by decide

theorem witness_FunctionPortsTouchNoRegister :
    State.reset.pins = (inMode .active).pins ∧ nextIs (step (inMode .active)) (fun _ => true) = true := by decide

end Sys2Proof.Tests
end

section
/-! The status port (10_state.md R27): the register in each of its fields, and what leaves it unchanged. -/

namespace Sys2Proof.Machine

variable (s : State)

@[simp] theorem outputs_status : (outputs s).status = status s := rfl

/-! ### The field each register has in the port -/

@[simp] theorem status_mode : (status s).extractLsb' 0 2 = s.mode.toBits := BitVec.extractLsb'_append_eq_right

/-- Above MODE the port holds one register per bit (R27). -/
theorem status_getLsbD_add_two {j : Nat} (hj : j < 6) :
    (status s).getLsbD (j + 2) = [s.inv, s.cap, s.seq, s.ill, s.rValid, s.rCap][j] := by
  simp only [status, BitVec.getLsbD_append]
  interval_cases j <;> simp

theorem status_inv : (status s).getLsbD 2 = s.inv := status_getLsbD_add_two s (j := 0) (by decide)

theorem status_cap : (status s).getLsbD 3 = s.cap := status_getLsbD_add_two s (j := 1) (by decide)

theorem status_seq : (status s).getLsbD 4 = s.seq := status_getLsbD_add_two s (j := 2) (by decide)

theorem status_ill : (status s).getLsbD 5 = s.ill := status_getLsbD_add_two s (j := 3) (by decide)

theorem status_rValid : (status s).getLsbD 6 = s.rValid := status_getLsbD_add_two s (j := 4) (by decide)

theorem status_rCap : (status s).getLsbD 7 = s.rCap := status_getLsbD_add_two s (j := 5) (by decide)

/-- A cause's code is the position of its sticky flag (R160). -/
theorem status_errorFlag (e : ErrorCause) : (status s).getLsbD e.code = errorFlag e s := by
  cases e with
  | inv => exact status_inv s
  | cap => exact status_cap s
  | seq => exact status_seq s
  | ill => exact status_ill s

/-! ### What leaves the port as it is -/

/-- The host's next inputs alone do not reach the port. -/
@[simp] theorem status_nextCycle : status (nextCycle s) = status s := by simp [status]

/-- Without reset and without an offered word an edge completes and keeps the port. -/
theorem status_of_step_idle {s : State} (hrst : s.pins.rst = false) (hvalid : s.pins.cmdValid = false) :
    ∃ t, step s = .next t ∧ status t = status s :=
  ⟨nextCycle s, step_of_idle hrst hvalid, status_nextCycle s⟩

theorem status_reset : status State.reset = 0x00 := by decide

/-- Settles O45: each field is read off the concatenation of R27, and an idle edge moves only the host's ports. -/
theorem statusPortLayout : Obligations.StatusPortLayout := by
  intro s
  simp only [outputs_status]
  refine ⟨?_, status_inv s, status_cap s, status_seq s, status_ill s, status_rValid s, status_rCap s,
    status_errorFlag s, status_reset, status_of_step_idle⟩
  rw [status_mode]
  cases s.mode <;> rfl

end Sys2Proof.Machine
end

section
/-! A command word from its decoding: each command has one word (30_encoding.md R62, R66). -/

namespace Sys2Proof

/-- An operand byte whose bits 7:5 are 0 is its low five bits, zero-extended (R63). -/
theorem setWidth_index_of_high_zero {arg : BitVec 8} (h : arg.extractLsb' 5 3 = 0) :
    (arg.extractLsb' 0 5).setWidth 8 = arg := by
  revert arg; decide

/-- The decoder keeps every field: the command it answers has the fields it was given (R61 to R65). -/
theorem fields_of_decodeFields {f : Fields} {i : Instr} (h : decodeFields f = .ok i) : i.fields = f := by
  obtain ⟨op, rsv, arg⟩ := f
  simp only [decodeFields] at h
  split_ifs at h with hop hrsv hpushc hpushi hidx harg hnop hstart <;>
    obtain rfl : rsv = 0 := not_not.1 hrsv <;> cases h
  · simp [Instr.fields, hpushc]
  · simp [Instr.fields, hpushi, setWidth_index_of_high_zero hidx]
  · simp [Instr.fields, hnop, not_not.1 harg]
  · simp [Instr.fields, hstart, not_not.1 harg]
  · have hfinish : op = 4 := by bv_omega
    simp [Instr.fields, hfinish, not_not.1 harg]

/-- The word a command was decoded from is that command's word. -/
theorem encode_of_decode {w : CmdWord} {i : Instr} (h : decode w = .ok i) : encode i = w := by
  rw [encode, fields_of_decodeFields h, Fields.toWord_ofWord]

end Sys2Proof
end

section
/-! The result registers R_*, R_VALID and R_CAP (10_state.md R23, R24): what a command and an edge do to them. -/

namespace Sys2Proof.Machine

/-- The result part of a state: R_*, R_VALID and R_CAP are equal. -/
def SameResult (s t : State) : Prop := t.r = s.r ∧ t.rValid = s.rValid ∧ t.rCap = s.rCap

variable {s t : State}

/-- Only FINISH in a run writes the result (R59, R114). -/
theorem exec_sameResult {i : Instr} (h : exec i s = .next t) (hne : ¬ (i = .finish ∧ s.mode = .active)) :
    SameResult s t := by
  unfold SameResult
  cases i with
  | nop => cases h; simp
  | start => cases h; simp
  | pushc ch => rcases execPushc_cases h with ⟨_, rfl⟩ | ⟨_, rfl⟩ | ⟨_, _, rfl⟩ | ⟨idx, _, _, rfl⟩ <;> simp
  | pushi idx => rcases execPushi_cases h with ⟨_, rfl⟩ | ⟨_, rfl⟩ | ⟨_, rfl⟩ <;> simp
  | finish =>
    rcases execFinish_cases h with ⟨_, rfl⟩ | ⟨_, rfl⟩ | ⟨hactive, _⟩
    · simp
    · simp
    · exact absurd ⟨rfl, hactive⟩ hne

/-- An edge other than reset and an accepted FINISH in a run keeps the result (R59). -/
theorem step_sameResult (h : step s = .next t)
    (hne : ¬ (s.pins.rst = true ∨ (s.pins.Offers 0x4000 ∧ s.mode = .active))) : SameResult s t := by
  rcases step_cases h with ⟨hrst, _⟩ | ⟨_, _, rfl⟩ | ⟨w, i, hoffers, hdecode, hexec⟩ | ⟨_, _, _, _, rfl⟩
  · exact absurd (.inl hrst) hne
  · simp [SameResult]
  · have hcommit : ¬ (i = .finish ∧ (nextCycle s).mode = .active) := by
      rintro ⟨rfl, hactive⟩
      have hw : 0x4000 = w := encode_of_decode hdecode
      exact hne (.inr ⟨hw ▸ hoffers, by simpa using hactive⟩)
    simpa [SameResult] using exec_sameResult hexec hcommit
  · simp [SameResult]

/-- Settles O26: the result ports are functions of R_* alone (R120, R121, R144), and the edge keeps R_*. -/
theorem resultsChangeOnlyAtCommitOrReset : Obligations.ResultsChangeOnlyAtCommitOrReset := by
  intro s t hstep hne
  obtain ⟨hr, hvalid, hcap⟩ := step_sameResult hstep hne
  simp [outputs, resSShifted, resXor, hr, hvalid, hcap]

end Sys2Proof.Machine
end

section
/-! Command words by match and mask, and the illegal ones (30_encoding.md R61 to R64). -/

namespace Sys2Proof

/-! ### A command and its word determine each other -/

/-- The decoder reads a command's fields as that command (R62, R63). -/
theorem decodeFields_fields (i : Instr) : decodeFields i.fields = .ok i := by
  cases i with
  | nop => rfl
  | start => rfl
  | pushc ch => rfl
  | pushi idx =>
    have hhigh : (idx.setWidth 8).extractLsb' 5 3 = 0 := by revert idx; decide
    have hlow : (idx.setWidth 8).extractLsb' 0 5 = idx := by
      rw [BitVec.extractLsb'_setWidth_of_le (by decide), BitVec.extractLsb'_eq_self]
    simp [decodeFields, Instr.fields, hhigh, hlow]
  | finish => rfl

/-- A word decodes to a command exactly when its fields are the command's. -/
theorem decode_eq_ok_iff {w : CmdWord} {i : Instr} : decode w = .ok i ↔ i.fields = Fields.ofWord w := by
  refine ⟨fields_of_decodeFields, fun h => ?_⟩
  rw [decode, ← h, decodeFields_fields]

/-- A word decodes to a command exactly when it is the command's word. -/
theorem decode_eq_ok_iff_eq_encode {w : CmdWord} {i : Instr} : decode w = .ok i ↔ w = encode i := by
  refine ⟨fun h => (encode_of_decode h).symm, ?_⟩
  rintro rfl
  rw [decode_eq_ok_iff, encode, Fields.ofWord_toWord]

/-! ### The rows of the opcode map -/

/-- A row without free bits holds one word, its command's (R62). -/
theorem decode_eq_ok_iff_and_allOnes {w : CmdWord} {i : Instr} : decode w = .ok i ↔ w &&& 0xFFFF = encode i := by
  have hall : w &&& 0xFFFF = w := BitVec.and_allOnes
  rw [decode_eq_ok_iff_eq_encode, hall]

theorem Fields.ofWord_inj {w w' : CmdWord} : Fields.ofWord w = Fields.ofWord w' ↔ w = w' :=
  (Function.LeftInverse.injective Fields.toWord_ofWord).eq_iff

/-- Masking a word masks each of its fields. -/
theorem Fields.ofWord_and_toWord (w : CmdWord) (f : Fields) :
    Fields.ofWord (w &&& f.toWord) =
      ⟨(Fields.ofWord w).op &&& f.op, (Fields.ofWord w).rsv &&& f.rsv, (Fields.ofWord w).arg &&& f.arg⟩ := by
  conv_rhs => rw [← Fields.ofWord_toWord f]
  simp only [Fields.ofWord, BitVec.extractLsb'_and]

/-- Match and mask where OP and RSV are fixed: the masked ARG stands with OP and RSV as they are (R61, R62). -/
theorem and_argMask_eq_iff {w : CmdWord} {mask : BitVec 8} {f : Fields} :
    w &&& Fields.toWord ⟨0xF, 0xF, mask⟩ = f.toWord ↔
      f = ⟨(Fields.ofWord w).op, (Fields.ofWord w).rsv, (Fields.ofWord w).arg &&& mask⟩ := by
  have hall (x : BitVec 4) : x &&& 0xF = x := BitVec.and_allOnes
  rw [← Fields.ofWord_inj, Fields.ofWord_and_toWord, Fields.ofWord_toWord, hall, hall, eq_comm]

/-- The operand bytes of PUSHI are those with bits 7:5 zero (R63). -/
theorem exists_setWidth_index_eq_iff (arg : BitVec 8) :
    (∃ idx : SymIdx, idx.setWidth 8 = arg) ↔ arg &&& 0xE0 = 0 := by
  constructor
  · rintro ⟨idx, rfl⟩
    revert idx; decide
  · intro h
    have hhigh : arg.extractLsb' 5 3 = 0 := by revert arg; decide
    exact ⟨_, setWidth_index_of_high_zero hhigh⟩

/-- PUSHC's row: ARG is free (R62). -/
theorem exists_decode_pushc_iff {w : CmdWord} : (∃ ch, decode w = .ok (.pushc ch)) ↔ w &&& 0xFF00 = 0x2000 := by
  change _ ↔ w &&& Fields.toWord ⟨0xF, 0xF, 0x00⟩ = Fields.toWord ⟨0x2, 0x0, 0x00⟩
  rw [and_argMask_eq_iff]
  rcases hf : Fields.ofWord w with ⟨op, rsv, arg⟩
  simp [decode_eq_ok_iff, Instr.fields, hf]

/-- PUSHI's row: the low five bits of ARG are free (R62). -/
theorem exists_decode_pushi_iff {w : CmdWord} : (∃ idx, decode w = .ok (.pushi idx)) ↔ w &&& 0xFFE0 = 0x3000 := by
  change _ ↔ w &&& Fields.toWord ⟨0xF, 0xF, 0xE0⟩ = Fields.toWord ⟨0x3, 0x0, 0x00⟩
  rw [and_argMask_eq_iff]
  rcases hf : Fields.ofWord w with ⟨op, rsv, arg⟩
  simp [decode_eq_ok_iff, Instr.fields, hf, exists_setWidth_index_eq_iff, @eq_comm _ 0#8]

/-- Two rows that share a word have the same value on the bits both fix. -/
theorem fixed_and_mask_comm_of_matches {row row' : OpcodeRow} {w : CmdWord} (h : row.matches w = true)
    (h' : row'.matches w = true) : row.fixed &&& row'.mask = row'.fixed &&& row.mask := by
  rw [OpcodeRow.matches, beq_iff_eq] at h h'
  rw [← h, ← h', BitVec.and_assoc, BitVec.and_comm row.mask, ← BitVec.and_assoc]

/-- Settles O3: each row by the fields its mask fixes; rows that share a word agree on the bits both fix, and no two
rows of the map do. -/
theorem wordsDecodeByMatchAndMask : Obligations.WordsDecodeByMatchAndMask := by
  have hapart : ∀ row ∈ opcodeRows, ∀ row' ∈ opcodeRows,
      row.fixed &&& row'.mask = row'.fixed &&& row.mask → row = row' := by decide
  constructor
  · exact fun w => ⟨decode_eq_ok_iff_and_allOnes, decode_eq_ok_iff_and_allOnes, exists_decode_pushc_iff,
      exists_decode_pushi_iff, decode_eq_ok_iff_and_allOnes⟩
  · exact fun w row hrow row' hrow' h h' => hapart row hrow row' hrow' (fixed_and_mask_comm_of_matches h h')

/-! ### The illegal words -/

/-- The decoder answers an error exactly on fields that are not legal. -/
theorem exists_decode_error_iff {w : CmdWord} :
    (∃ e, decode w = .error e) ↔ (Fields.ofWord w).legal = false := by
  rw [← decodeFields_isOk_iff_legal, decode]
  cases decodeFields (Fields.ofWord w) <;> simp [Except.isOk, Except.toBool]

/-- The four kinds of illegal word by their fields (R64). -/
theorem Fields.legal_eq_false_iff (f : Fields) :
    f.legal = false ↔ 5 ≤ f.op.toNat ∨ f.rsv ≠ 0 ∨ ((f.op = 0 ∨ f.op = 1 ∨ f.op = 4) ∧ f.arg ≠ 0) ∨
      (f.op = 3 ∧ f.arg.extractLsb' 5 3 ≠ 0) := by
  obtain ⟨op, rsv, arg⟩ := f
  by_cases hop : op.toNat ≤ 4
  · have hops : op = 0 ∨ op = 1 ∨ op = 2 ∨ op = 3 ∨ op = 4 := by bv_omega
    rcases hops with rfl | rfl | rfl | rfl | rfl <;> simp [Fields.legal, imp_iff_not_or]
  · simp [Fields.legal, hop, show 5 ≤ op.toNat by omega]

end Sys2Proof

namespace Sys2Proof.Machine

/-! ### What an edge does with an accepted word -/

variable {s : State}

/-- An accepted illegal word sets ILL and nothing else, in every MODE (R64, R164). -/
theorem step_of_offers_illegal {w : CmdWord} {e : IllegalWord} (h : s.pins.Offers w) (he : decode w = .error e) :
    step s = .next (reportError .ill (nextCycle s)) := by
  simp [step_of_offers h, he, execIllegal]

/-- An accepted command is executed (R67). -/
theorem step_of_offers_command {w : CmdWord} {i : Instr} (h : s.pins.Offers w) (hi : decode w = .ok i) :
    step s = exec i (nextCycle s) := by
  simp [step_of_offers h, hi]

/-- Settles O4: the decoder's four errors are R64's four kinds of word, and an illegal word's only effect is ILL. -/
theorem illegalWordSetsOnlyIll : Obligations.IllegalWordSetsOnlyIll := by
  constructor
  · intro w
    have hbits : (Fields.ofWord w).arg.extractLsb' 5 3 = w.extractLsb' 5 3 :=
      BitVec.extractLsb'_extractLsb'_of_le (by decide)
    rw [exists_decode_error_iff, Fields.legal_eq_false_iff, hbits]
    rfl
  · rintro s w hoffers ⟨e, he⟩
    exact ⟨_, step_of_offers_illegal hoffers he, by simp⟩

/-- Settles O9: reset, the idle edge and the accepted word are the three cases of the handshake. -/
theorem commandAcceptedExactlyWhenValidAndReady : Obligations.CommandAcceptedExactlyWhenValidAndReady := by
  intro s
  refine ⟨rfl, fun hrst => ⟨_, step_of_rst hrst, by simp [SameRegisters, State.reset]⟩,
    fun hvalid hrst => ⟨_, step_of_idle hrst hvalid, nextCycle_sameRegisters s⟩, fun hvalid hready => ?_⟩
  have hoffers : s.pins.Offers s.pins.cmdWord := ⟨by simpa [outputs, cmdReady] using hready, hvalid, rfl⟩
  exact ⟨fun i hi => step_of_offers_command hoffers hi,
    fun e he => ⟨_, step_of_offers_illegal hoffers he, by simp [SameRegisters]⟩⟩

end Sys2Proof.Machine
end

section
/-! What each command does in each MODE: one equation per MODE (41_bit_packer.md R110 to R114). -/

namespace Sys2Proof

/-- A word as its OP and RSV bits, with ARG standing in bits 7:0 (R61). -/
theorem Fields.toWord_eq_or (f : Fields) : f.toWord = (f.op ++ f.rsv ++ (0x00 : BitVec 8)) ||| f.arg.setWidth 16 := by
  apply BitVec.eq_of_getLsbD_eq
  intro j hj
  simp only [Fields.toWord, BitVec.getLsbD_or, BitVec.getLsbD_append, BitVec.getLsbD_setWidth, hj]
  by_cases harg : j < 8
  · simp [harg]
  · simp [harg, BitVec.getLsbD_of_ge f.arg j (by omega)]

theorem encode_pushc (ch : CharCode) : encode (.pushc ch) = 0x2000 ||| ch.setWidth 16 := by
  have hhead : (0x2 : BitVec 4) ++ (0 : BitVec 4) ++ (0x00 : BitVec 8) = 0x2000 := by decide
  simp only [encode, Fields.toWord_eq_or, Instr.fields, hhead]

theorem encode_pushi (idx : SymIdx) : encode (.pushi idx) = 0x3000 ||| idx.setWidth 16 := by
  have hhead : (0x3 : BitVec 4) ++ (0 : BitVec 4) ++ (0x00 : BitVec 8) = 0x3000 := by decide
  have hwiden : (idx.setWidth 8).setWidth 16 = idx.setWidth 16 := BitVec.setWidth_setWidth (by decide)
  simp only [encode, Fields.toWord_eq_or, Instr.fields, hhead, hwiden]

/-- NOP is the only command whose OP is 0 (R62). -/
theorem eq_nop_of_fields_op {i : Instr} (h : i.fields.op = 0) : i = .nop := by
  cases i with
  | nop => rfl
  | start | pushc | pushi | finish => exact absurd h (by simp [Instr.fields])

end Sys2Proof

namespace Sys2Proof.Machine

variable {s : State} {ch : CharCode} (idx : SymIdx)

/-! ### A push, of either operand form -/

theorem pushWith_of_idle (body : State → State) (h : s.mode = .idle) :
    pushWith body s = .next (reportError .seq s) := by
  simp [pushWith, h]

theorem pushWith_of_aborted (body : State → State) (h : s.mode = .aborted) : pushWith body s = .next s := by
  simp [pushWith, h]

theorem pushWith_of_active (body : State → State) (h : s.mode = .active) : pushWith body s = .next (body s) := by
  simp [pushWith, h]

theorem execPushi_of_idle (h : s.mode = .idle) : exec (.pushi idx) s = .next (reportError .seq s) :=
  pushWith_of_idle _ h

theorem execPushi_of_aborted (h : s.mode = .aborted) : exec (.pushi idx) s = .next s := pushWith_of_aborted _ h

theorem execPushi_of_active (h : s.mode = .active) : exec (.pushi idx) s = .next (packStep idx s) :=
  pushWith_of_active _ h

/-- A character of the Alphabet is pushed as its index, in every MODE (R112, R113). -/
theorem execPushc_eq_execPushi {idx : SymIdx} (h : symEncode ch = (true, idx)) (s : State) :
    exec (.pushc ch) s = exec (.pushi idx) s := by
  simp only [exec, execPushc, execPushi, charOperand_eq_some_iff.2 h]

theorem execPushc_of_idle (ch : CharCode) (h : s.mode = .idle) :
    exec (.pushc ch) s = .next (reportError .seq s) := by
  simp only [exec, execPushc, pushWith_of_idle _ h]

theorem execPushc_of_aborted (ch : CharCode) (h : s.mode = .aborted) : exec (.pushc ch) s = .next s := by
  simp only [exec, execPushc, pushWith_of_aborted _ h]

/-- A character outside the Alphabet aborts the run in progress (R112). -/
theorem execPushc_of_invalid (hch : (symEncode ch).1 = false) (h : s.mode = .active) :
    exec (.pushc ch) s = .next (reportError .inv s) := by
  simp only [exec, execPushc, charOperand_eq_none_iff.2 hch, pushWith_of_active _ h]

/-! ### FINISH -/

theorem execFinish_of_idle (h : s.mode = .idle) : exec .finish s = .next (reportError .seq s) := by
  simp [exec, execFinish, h]

theorem execFinish_of_aborted (h : s.mode = .aborted) : exec .finish s = .next (dropRun s) := by
  simp [exec, execFinish, h]

theorem execFinish_of_active (h : s.mode = .active) : exec .finish s = .next (commitRun s) := by
  simp [exec, execFinish, h]

/-! ### A push in a run whose primary is saturated -/

/-- Case B of R101 on the state. -/
theorem packStep_of_secondary (hp : 32 ≤ s.w.pc.toNat) (hs : s.w.sc.toNat < 32) :
    packStep idx s = { s with w := s.w.pushSecondary idx } :=
  packStep_of_some idx (by simp [PackedStream.push?, hs, show ¬ s.w.pc.toNat < 32 by omega])

/-- In a full run a push only sets CAP (R107). -/
theorem execPushi_of_full (h : s.mode = .active) (hfull : s.w.Full) :
    exec (.pushi idx) s = .next (reportError .cap s) := by
  rw [execPushi_of_active idx h, packStep_of_full idx hfull]

/-- CAP set stays set: setting it again changes nothing (R107). -/
@[simp] theorem reportError_cap_reportError_cap (s : State) :
    reportError .cap (reportError .cap s) = reportError .cap s := rfl

/-- `place` is R102's saturating amount, computed on the integers. -/
theorem place_eq_max (c w : Nat) : (place c w : Int) = max 0 ((32 - (c : Int)) - w) := by
  unfold place; omega

/-! ### The commands' obligations -/

/-- Settles O19: the primary stands at 32 or more, so the step is case B, `placeSymbol` on the secondary. -/
theorem secondaryTakesTheSymbol : Obligations.SecondaryTakesTheSymbol := by
  intro idx s hactive hp hs
  have hw := width_bounds idx
  have hsc := pushSecondary_sc s.w idx hs
  refine ⟨{ s with w := s.w.pushSecondary idx }, ?_, fun j hj => ?_, hsc, by simp only [hsc]; omega, rfl⟩
  · rw [execPushi_of_active idx hactive, packStep_of_secondary idx hp hs]
  · simp only [← place_eq_max, Int.toNat_natCast, Nat.cast_le]
    exact getLsbD_placeSymbol idx s.w.s s.w.sc.toNat j hj

/-- Settles O20: the run stays full and active while CAP is set, so each later push meets the same case, and FINISH
copies CAP to R_CAP. -/
theorem fullRunDropsSymbols : Obligations.FullRunDropsSymbols := by
  intro idx s hactive hp hs
  have hfull : s.w.Full := ⟨hp, hs⟩
  have hagain : ∀ idx', exec (.pushi idx') (reportError .cap s) = .next (reportError .cap s) :=
    fun idx' => execPushi_of_full idx' (s := reportError .cap s) hactive hfull
  refine ⟨_, execPushi_of_full idx hactive hfull, rfl, hagain, fun ch idx' hch => ?_, ?_⟩
  · rw [execPushc_eq_execPushi hch, hagain]
  · exact ⟨_, execFinish_of_active (s := reportError .cap s) hactive, rfl, rfl, rfl⟩

/-- Settles O12: a word with OP 0 that decodes can only be NOP's. -/
theorem nopChangesNothing : Obligations.NopChangesNothing := by
  refine ⟨rfl, fun s => rfl, fun w hop hne => ?_⟩
  cases hd : decode w with
  | error e => exact ⟨e, rfl⟩
  | ok i =>
    have hnop : i = .nop := eq_nop_of_fields_op (by rw [fields_of_decodeFields hd]; exact hop)
    subst hnop
    exact absurd (encode_of_decode hd).symm hne

/-- Settles O13: START answers `beginRun` in every MODE. -/
theorem startBeginsAFreshRun : Obligations.StartBeginsAFreshRun :=
  ⟨rfl, fun s => ⟨beginRun s, execStart_eq, by simp [PackedStream.empty]⟩⟩

/-- Settles O14: PUSHC is a push, whose effect in a run is read off the Symbol Table. -/
theorem pushcByMode : Obligations.PushcByMode := fun ch _ =>
  ⟨encode_pushc ch, execPushc_of_idle ch, execPushc_of_aborted ch,
    fun hactive hch => execPushc_of_invalid hch hactive,
    fun hactive idx hch => (execPushc_eq_execPushi hch _).trans (execPushi_of_active idx hactive)⟩

/-- Settles O15: PUSHI is a push, and the pack step does not write INV. -/
theorem pushiByMode : Obligations.PushiByMode := fun idx s =>
  ⟨encode_pushi idx, execPushi_of_idle idx, execPushi_of_aborted idx,
    fun hactive => ⟨execPushi_of_active idx hactive, packStep_inv s idx⟩⟩

/-- Settles O16: FINISH reports, drops or commits by MODE, and the commit copies W_* whole. -/
theorem finishByMode : Obligations.FinishByMode :=
  ⟨rfl, fun _ => ⟨execFinish_of_idle, execFinish_of_aborted,
    fun hactive => ⟨_, execFinish_of_active hactive, rfl, rfl, rfl, rfl, rfl⟩⟩⟩

end Sys2Proof.Machine
end

section
/-! The report outputs of a committed run (41_bit_packer.md R120 to R122). -/

namespace Sys2Proof.Machine

variable (s : State)

@[simp] theorem outputs_resP : (outputs s).resP = s.r.p := rfl
@[simp] theorem outputs_resSShifted : (outputs s).resSShifted = shifted s.r.s s.r.sc := rfl
@[simp] theorem outputs_resXor : (outputs s).resXor = s.r.p ^^^ shifted s.r.s s.r.sc := rfl

/-- An empty secondary: the shift by 32 leaves no bit (R120). -/
theorem shifted_zero (word : Word) : shifted word 0 = 0 := BitVec.ushiftRight_eq_zero (by decide)

/-- Bit j of the shifted word stood `32 - SC` higher (R120). -/
theorem getLsbD_shifted (word : Word) (sc : Cursor) (j : Nat) :
    (shifted word sc).getLsbD j = word.getLsbD (32 - sc.toNat + j) := BitVec.getLsbD_ushiftRight ..

/-- A saturated secondary is not shifted: the amount is clamped to 0 (R120). -/
theorem shifted_of_le (word : Word) {sc : Cursor} (h : 32 ≤ sc.toNat) : shifted word sc = word := by
  simp [shifted, show 32 - sc.toNat = 0 by omega]

theorem binaryString_length (x : Word) : (binaryString x).length = 32 := by simp [binaryString]

/-- Settles O46: the three ranges of SC are the shift by 32, the shift by `32 - SC` and the clamped shift. -/
theorem shiftedSecondaryIsRightJustified : Obligations.ShiftedSecondaryIsRightJustified := by
  intro s
  simp only [outputs_resSShifted]
  refine ⟨fun h => ?_, fun _ _ j => getLsbD_shifted _ _ j, fun h _ => shifted_of_le _ (by omega)⟩
  rw [h, shifted_zero]

/-- Settles O47: the report is the digit string of each of the three ports. -/
theorem reportIsThreeDigitStrings : Obligations.ReportIsThreeDigitStrings := fun _ =>
  ⟨rfl, binaryString_length _, binaryString_length _, binaryString_length _, fun _ hk =>
    ⟨binaryString_getElem? _ hk, binaryString_getElem? _ hk, binaryString_getElem? _ hk⟩⟩

end Sys2Proof.Machine
end

section
/-! The canonical string (42_canonicalizer.md): the character in each byte lane of a port that packs ten of them. -/

namespace Sys2Proof.Machine

/-! ### Packing a string of character codes (R53) -/

theorem packChars_append_singleton (cs : List CharCode) (c : CharCode) :
    packChars (cs ++ [c]) = packChars cs <<< 8 ||| c.setWidth 80 := by
  simp [packChars]

/-- The last character stands in the lowest byte. -/
theorem packChars_append_singleton_lane_zero (cs : List CharCode) (c : CharCode) :
    (packChars (cs ++ [c])).extractLsb' 0 8 = c := by
  rw [packChars_append_singleton]
  ext i hi
  simp [show i < 80 by omega, hi]

/-- One more character moves each earlier one a byte up. -/
theorem packChars_append_singleton_lane_succ (cs : List CharCode) (c : CharCode) {j : Nat} (hj : j < 9) :
    (packChars (cs ++ [c])).extractLsb' (8 * (j + 1)) 8 = (packChars cs).extractLsb' (8 * j) 8 := by
  have hhigh (i : Nat) : c.getLsbD (8 * (j + 1) + i) = false := BitVec.getLsbD_of_ge c _ (by omega)
  rw [packChars_append_singleton]
  refine BitVec.eq_of_getLsbD_eq fun i hi => ?_
  simp [-BitVec.getLsbD_eq_getElem, hi, hhigh, show 8 * (j + 1) + i < 80 by omega,
    show ¬ 8 * (j + 1) + i < 8 by omega, show 8 * (j + 1) + i - 8 = 8 * j + i by omega]

/-- The character with `j` after it stands `j` bytes up, as long as the port has that byte. -/
theorem packChars_lane {cs : List CharCode} {k j : Nat} {c : CharCode} (hk : cs[k]? = some c)
    (hlen : k + j + 1 = cs.length) (hj : j < 10) : (packChars cs).extractLsb' (8 * j) 8 = c := by
  induction cs using List.reverseRecOn generalizing j with
  | nil => simp at hk
  | append_singleton cs d ih =>
    rw [List.length_append, List.length_singleton] at hlen
    cases j with
    | zero =>
      obtain rfl : k = cs.length := by omega
      obtain rfl : d = c := by simpa using hk
      exact packChars_append_singleton_lane_zero cs d
    | succ j =>
      rw [List.getElem?_append_left (by omega)] at hk
      rw [packChars_append_singleton_lane_succ cs d (by omega), ih hk (by omega) (by omega)]

/-! ### The ten characters of the canonical string (R141 to R143) -/

@[simp] theorem canonicalize_length (x : Word) : (canonicalize x).length = 10 := rfl

theorem canonicalize_getElem?_of_lt (x : Word) {k : Nat} (hk : k < 8) :
    (canonicalize x)[k]? = some (canonChar x k) := by
  rw [canonicalize, List.getElem?_append_left (by simpa using hk)]
  simp [hk]

/-- Lane k of the port is character k of the string. -/
theorem canonOut_lane {x : Word} {k : Nat} {c : CharCode} (hk : (canonicalize x)[k]? = some c) (hlt : k < 10) :
    (canonOut x).extractLsb' (72 - 8 * k) 8 = c := by
  rw [show 72 - 8 * k = 8 * (9 - k) by omega]
  exact packChars_lane hk (by rw [canonicalize_length]; omega) (by omega)

theorem canonOut_lane_nibble (x : Word) {k : Nat} (hk : k < 8) :
    (canonOut x).extractLsb' (72 - 8 * k) 8 = canonChar x k :=
  canonOut_lane (canonicalize_getElem?_of_lt x hk) (by omega)

theorem canonOut_suffix_fst (x : Word) : (canonOut x).extractLsb' 8 8 = Config.canonSuffix.1 :=
  canonOut_lane (k := 8) rfl (by decide)

theorem canonOut_suffix_snd (x : Word) : (canonOut x).extractLsb' 0 8 = Config.canonSuffix.2 :=
  canonOut_lane (k := 9) rfl (by decide)

/-! ### The two ports that carry it -/

@[simp] theorem outputs_canonOut (s : State) : (outputs s).canonOut = canonOut s.pins.canonIn := rfl
@[simp] theorem outputs_resCanon (s : State) : (outputs s).resCanon = canonOut s.r.p := rfl

/-- Settles O48: both ports are `canonOut` of a word, whose lanes are the characters of the canonical string. -/
theorem canonicalLanesAreNibbles : Obligations.CanonicalLanesAreNibbles := by
  intro s
  simp only [outputs_canonOut, outputs_resCanon, outputs_resP]
  exact ⟨fun k hk => ⟨canonOut_lane_nibble _ hk, canonOut_lane_nibble _ hk⟩,
    canonOut_suffix_fst _, canonOut_suffix_snd _, canonOut_suffix_fst _, canonOut_suffix_snd _⟩

end Sys2Proof.Machine
end

section
/-! The Bit Differ (43_bit_differ.md): each bit position of its two words and of its sequence of pairs. -/

namespace Sys2Proof.Machine

@[simp] theorem outputs_diffMatch (s : State) :
    (outputs s).diffMatch = diffMatch s.pins.diffA s.pins.diffB := rfl
@[simp] theorem outputs_diffXor (s : State) :
    (outputs s).diffXor = diffXor s.pins.diffA s.pins.diffB := rfl

variable (a b : Word)

/-- A bit of the XOR is 1 where the operands differ (R152). -/
theorem getLsbD_diffXor (j : Nat) : (diffXor a b).getLsbD j = (a.getLsbD j != b.getLsbD j) :=
  BitVec.getLsbD_xor

/-- The match word is the XOR's complement (R151, R152). -/
theorem diffMatch_eq_not_diffXor : diffMatch a b = ~~~diffXor a b := rfl

/-- A bit of the match word is 1 where the operands agree (R151). -/
theorem getLsbD_diffMatch {j : Nat} (hj : j < 32) :
    (diffMatch a b).getLsbD j = (a.getLsbD j == b.getLsbD j) := by
  rw [diffMatch_eq_not_diffXor, BitVec.getLsbD_not, getLsbD_diffXor]
  simp [hj, bne]

theorem diffPairs_length : (diffPairs a b).length = 32 := by simp [diffPairs]

/-- Pair k is the candidate's digit k and its match bit (R154). -/
theorem diffPairs_getElem? {k : Nat} (hk : k < 32) :
    (diffPairs a b)[k]? = some (digit (b.getLsbD (31 - k)), a.getLsbD (31 - k) == b.getLsbD (31 - k)) := by
  rw [← getLsbD_diffMatch a b (by omega)]
  simp [diffPairs, hk]

/-- Settles O50: the two ports are the XOR and its complement, and pair k stands at bit 31 - k. -/
theorem differLanes : Obligations.DifferLanes := by
  intro s
  simp only [outputs_diffMatch, outputs_diffXor]
  exact ⟨fun j hj => ⟨getLsbD_diffMatch _ _ hj, getLsbD_diffXor _ _ j⟩, diffPairs_length _ _,
    fun _ hk => diffPairs_getElem? _ _ hk⟩

end Sys2Proof.Machine
end

section
/-! The error flags over one edge (60_exceptions.md R160 to R168): what clears them, and what may raise one. -/

namespace Sys2Proof.Machine

variable {s t : State} {e c : ErrorCause} {i : Instr} {w : CmdWord}

/-! ### The flags after each update of the state -/

@[simp] theorem errorFlag_resetRegisters : errorFlag e (resetRegisters s) = false := by cases e <;> rfl

@[simp] theorem errorFlag_beginRun : errorFlag e (beginRun s) = false := by cases e <;> rfl

@[simp] theorem errorFlag_nextCycle : errorFlag e (nextCycle s) = errorFlag e s := by
  cases e <;> simp [errorFlag]

@[simp] theorem errorFlag_commitRun : errorFlag e (commitRun s) = errorFlag e s := by cases e <;> rfl

@[simp] theorem errorFlag_dropRun : errorFlag e (dropRun s) = errorFlag e s := by cases e <;> rfl

/-- Reporting a cause sets its flag and leaves the other three (R160). -/
@[simp] theorem errorFlag_reportError :
    errorFlag e (reportError c s) = (decide (e = c) || errorFlag e s) := by
  cases e <;> cases c <;> rfl

/-- CAP after a pack step: a full accumulator drops the symbol (R107, R162). -/
theorem packStep_cap_iff (idx : SymIdx) : (packStep idx s).cap = true ↔ s.cap = true ∨ s.w.Full := by
  by_cases hfull : s.w.Full
  · simp [packStep_of_full idx hfull, hfull]
  · rcases packStep_cases idx s with ⟨k, _, hstep⟩ | ⟨hfull', _⟩
    · simp [hstep, hfull]
    · exact absurd hfull' hfull

/-! ### Raising one flag -/

/-- From `s` to `t` no flag falls, and no flag but `c` rises. -/
def RaisesAtMost (c : ErrorCause) (s t : State) : Prop :=
  ∀ e, errorFlag e t = errorFlag e s ∨ (e = c ∧ errorFlag e t = true)

theorem RaisesAtMost.keeps (h : RaisesAtMost c s t) (hs : errorFlag e s = true) : errorFlag e t = true := by
  rcases h e with hsame | ⟨_, ht⟩
  · rw [hsame, hs]
  · exact ht

theorem RaisesAtMost.eq_of_rises (h : RaisesAtMost c s t) (hs : errorFlag e s = false) (ht : errorFlag e t = true) :
    e = c := by
  rcases h e with hsame | ⟨heq, _⟩
  · simp [hsame, hs] at ht
  · exact heq

theorem raisesAtMost_of_same (c : ErrorCause) (h : ∀ e, errorFlag e t = errorFlag e s) : RaisesAtMost c s t :=
  fun e => .inl (h e)

theorem raisesAtMost_reportError (c : ErrorCause) (s : State) : RaisesAtMost c s (reportError c s) := by
  intro e
  by_cases h : e = c
  · exact .inr ⟨h, by simp [h]⟩
  · exact .inl (by simp [h])

theorem raisesAtMost_packStep (idx : SymIdx) (s : State) : RaisesAtMost .cap s (packStep idx s) := by
  rcases packStep_cases idx s with ⟨k, _, hstep⟩ | ⟨_, hstep⟩ <;> rw [hstep]
  · exact raisesAtMost_of_same _ fun e => by cases e <;> rfl
  · exact raisesAtMost_reportError .cap s

/-- A command other than START clears no flag and raises at most one (R166, R168). -/
theorem exec_raisesAtMost (h : exec i s = .next t) (hne : i ≠ .start) : ∃ c, RaisesAtMost c s t := by
  cases i with
  | nop => cases h; exact ⟨.ill, raisesAtMost_of_same _ fun _ => rfl⟩
  | start => exact absurd rfl hne
  | pushc ch =>
    rcases execPushc_cases h with ⟨_, rfl⟩ | ⟨_, rfl⟩ | ⟨_, _, rfl⟩ | ⟨idx, _, _, rfl⟩
    · exact ⟨.seq, raisesAtMost_reportError _ _⟩
    · exact ⟨.inv, raisesAtMost_of_same _ fun _ => rfl⟩
    · exact ⟨.inv, raisesAtMost_reportError _ _⟩
    · exact ⟨.cap, raisesAtMost_packStep idx _⟩
  | pushi idx =>
    rcases execPushi_cases h with ⟨_, rfl⟩ | ⟨_, rfl⟩ | ⟨_, rfl⟩
    · exact ⟨.seq, raisesAtMost_reportError _ _⟩
    · exact ⟨.cap, raisesAtMost_of_same _ fun _ => rfl⟩
    · exact ⟨.cap, raisesAtMost_packStep idx _⟩
  | finish =>
    rcases execFinish_cases h with ⟨_, rfl⟩ | ⟨_, rfl⟩ | ⟨_, rfl⟩
    · exact ⟨.seq, raisesAtMost_reportError _ _⟩
    · exact ⟨.seq, raisesAtMost_of_same _ fun _ => errorFlag_dropRun⟩
    · exact ⟨.seq, raisesAtMost_of_same _ fun _ => errorFlag_commitRun⟩

/-- An edge other than reset and START clears no flag and raises at most one (R166, R168). -/
theorem step_raisesAtMost (h : step s = .next t) (hne : ¬ (s.pins.rst = true ∨ s.pins.Offers 0x1000)) :
    ∃ c, RaisesAtMost c s t := by
  have hports {c : ErrorCause} (h : RaisesAtMost c (nextCycle s) t) : RaisesAtMost c s t := by
    simpa [RaisesAtMost] using h
  rcases step_cases h with ⟨hrst, _⟩ | ⟨_, _, rfl⟩ | ⟨w, i, hoffers, hdecode, hexec⟩ | ⟨_, _, _, _, rfl⟩
  · exact absurd (.inl hrst) hne
  · exact ⟨.ill, raisesAtMost_of_same _ fun _ => errorFlag_nextCycle⟩
  · have hi : i ≠ .start := by
      rintro rfl
      have hw : 0x1000 = w := encode_of_decode hdecode
      exact hne (.inr (hw ▸ hoffers))
    exact (exec_raisesAtMost hexec hi).imp fun _ => hports
  · exact ⟨.ill, hports (raisesAtMost_reportError .ill _)⟩

/-! ### The edges that clear the flags -/

theorem step_of_offers_start (h : s.pins.Offers 0x1000) : step s = .next (beginRun (nextCycle s)) :=
  step_of_offers_command h rfl

/-- Reset and START leave no flag set (R168). -/
theorem step_clears_errorFlags (h : step s = .next t) (hclear : s.pins.rst = true ∨ s.pins.Offers 0x1000) :
    errorFlag e t = false := by
  rcases hclear with hrst | hstart
  · rw [step_of_rst hrst] at h
    cases h; exact errorFlag_resetRegisters
  · rw [step_of_offers_start hstart] at h
    cases h; exact errorFlag_beginRun

/-- Settles O25: START and reset answer a state with no flag set, and on every other edge each flag is kept. -/
theorem flagsClearOnlyAtStartOrReset : Obligations.FlagsClearOnlyAtStartOrReset := by
  intro s
  refine ⟨fun hstart => ⟨_, step_of_offers_start hstart, fun _ => errorFlag_beginRun, rfl, rfl⟩,
    fun hrst => ⟨_, step_of_rst hrst, fun _ => errorFlag_resetRegisters⟩, fun t e hstep hs ht => ?_⟩
  by_contra hne
  obtain ⟨c, hraises⟩ := step_raisesAtMost hstep hne
  simp [hraises.keeps hs] at ht

/-! ### The order of the checks -/

/-- Two flags that rise over one edge are the same flag (R166). -/
theorem step_risen_flag_unique {a b : ErrorCause} (h : step s = .next t)
    (ha : errorFlag a s = false) (ha' : errorFlag a t = true)
    (hb : errorFlag b s = false) (hb' : errorFlag b t = true) : a = b := by
  by_cases hclear : s.pins.rst = true ∨ s.pins.Offers 0x1000
  · simp [step_clears_errorFlags h hclear] at ha'
  · obtain ⟨c, hraises⟩ := step_raisesAtMost h hclear
    rw [hraises.eq_of_rises ha ha', hraises.eq_of_rises hb hb']

/-- Before the character and the capacity: outside a run, a command that needs one reports SEQ (R163). -/
theorem exec_runCommand_of_idle (hi : i = .finish ∨ (∃ ch, i = .pushc ch) ∨ ∃ idx, i = .pushi idx)
    (h : s.mode = .idle) : exec i s = .next (reportError .seq s) := by
  rcases hi with rfl | ⟨ch, rfl⟩ | ⟨idx, rfl⟩
  · exact execFinish_of_idle h
  · exact execPushc_of_idle ch h
  · exact execPushi_of_idle idx h

/-- A push in an aborted run reports nothing (R112, R113). -/
theorem exec_push_of_aborted (hi : (∃ ch, i = .pushc ch) ∨ ∃ idx, i = .pushi idx) (h : s.mode = .aborted) :
    exec i s = .next s := by
  rcases hi with ⟨ch, rfl⟩ | ⟨idx, rfl⟩
  · exact execPushc_of_aborted ch h
  · exact execPushi_of_aborted idx h

/-- A push of a symbol in a run, by index or by character, is the pack step (R112, R113). -/
theorem exec_push_of_active {idx : SymIdx} (hi : i = .pushi idx ∨ ∃ ch, i = .pushc ch ∧ symEncode ch = (true, idx))
    (h : s.mode = .active) : exec i s = .next (packStep idx s) := by
  rcases hi with rfl | ⟨ch, rfl, hch⟩
  · exact execPushi_of_active idx h
  · rw [execPushc_eq_execPushi hch, execPushi_of_active idx h]

/-- The state after an edge that accepts a command is the one its `exec` answers. -/
theorem eq_of_step_of_exec {u : State} (h : step s = .next t) (ho : s.pins.Offers w) (hd : decode w = .ok i)
    (hu : exec i (nextCycle s) = .next u) : t = u := by
  rw [step_of_offers_command ho hd, hu] at h
  cases h; rfl

/-- Settles O24: each clause names the check that decides, and so the one state the edge can answer. -/
theorem oneCommandSetsAtMostOneFlag : Obligations.OneCommandSetsAtMostOneFlag := by
  intro s t hstep
  have hmode : (nextCycle s).mode = s.mode := nextCycle_mode s
  refine ⟨fun _ _ => step_risen_flag_unique hstep, fun hrst _ => step_clears_errorFlags hstep (.inl hrst),
    ?word, ?outsideRun, ?abortedRun, ?character, ?capacity⟩
  case word =>
    rintro w ho ⟨x, hx⟩
    rw [step_of_offers_illegal ho hx] at hstep
    cases hstep; simp
  case outsideRun =>
    intro w i ho hd hi hidle
    obtain rfl := eq_of_step_of_exec hstep ho hd (exec_runCommand_of_idle hi (hmode.trans hidle))
    simp
  case abortedRun =>
    intro w i ho hd hi haborted e
    obtain rfl := eq_of_step_of_exec hstep ho hd (exec_push_of_aborted hi (hmode.trans haborted))
    exact errorFlag_nextCycle
  case character =>
    intro w ch ho hd hactive hch
    obtain rfl := eq_of_step_of_exec hstep ho hd (execPushc_of_invalid hch (hmode.trans hactive))
    simp
  case capacity =>
    intro w i idx ho hd hactive hi
    obtain rfl := eq_of_step_of_exec hstep ho hd (exec_push_of_active hi (hmode.trans hactive))
    simp [packStep_cap_iff, PackedStream.Full]

end Sys2Proof.Machine
end

section
/-! Reset (70_reset_and_hazards.md R180, R183): the registers after an edge with `rst` = 1. -/

namespace Sys2Proof.Machine

/-- Settles O10: the edge answers `resetRegisters`, which reads no register of the state before it. -/
theorem resetEdgeSetsEveryRegister : Obligations.ResetEdgeSetsEveryRegister := fun _ hrst =>
  ⟨_, step_of_rst hrst, by simp [PackedStream.empty]⟩

/-- Settles O11: reset clears the four flags, and both Packed Streams are that of no symbols. -/
theorem resetStateIsIdleAndUnflagged : Obligations.ResetStateIsIdleAndUnflagged := by
  have hflags (e : ErrorCause) : errorFlag e State.reset = false := errorFlag_resetRegisters (s := State.reset)
  have hempty : (pack []).1 = .empty := by rw [pack_nil]
  exact ⟨rfl, hflags, rfl, status_reset, hempty.symm, hempty.symm⟩

end Sys2Proof.Machine
end

section
/-! The edge reads the registers, `rst` and the accepted word, and nothing else (30_encoding.md R67,
70_reset_and_hazards.md R187): on equal registers it answers equal registers. -/

namespace Sys2Proof.Machine

variable {s s' t : State}

/-! ### The updates of the state, on equal registers -/

theorem SameRegisters.mode_eq (h : SameRegisters s' s) : s'.mode = s.mode := by
  obtain ⟨_, _, _, _, hmode, _⟩ := h
  exact hmode

theorem SameRegisters.reportError (h : SameRegisters s' s) (e : ErrorCause) :
    SameRegisters (reportError e s') (reportError e s) := by
  cases e <;> simp_all [SameRegisters]

theorem SameRegisters.beginRun (h : SameRegisters s' s) : SameRegisters (beginRun s') (beginRun s) := by
  simp_all [SameRegisters]

theorem SameRegisters.commitRun (h : SameRegisters s' s) : SameRegisters (commitRun s') (commitRun s) := by
  simp_all [SameRegisters]

theorem SameRegisters.dropRun (h : SameRegisters s' s) : SameRegisters (dropRun s') (dropRun s) := by
  simp_all [SameRegisters]

theorem SameRegisters.nextCycle (h : SameRegisters s' s) : SameRegisters (nextCycle s') (nextCycle s) :=
  (nextCycle_sameRegisters s').trans (h.trans (nextCycle_sameRegisters s).symm)

theorem resetRegisters_sameRegisters (s s' : State) : SameRegisters (resetRegisters s') (resetRegisters s) := by
  simp [SameRegisters]

/-- The pack step moves W_* and CAP by a function of W_* and CAP (R101). -/
theorem SameRegisters.packStep (h : SameRegisters s' s) (idx : SymIdx) :
    SameRegisters (packStep idx s') (packStep idx s) := by
  obtain ⟨hw, hr, hvalid, hrCap, hmode, hinv, hcap, hseq, hill⟩ := h
  have hpacked : ((Machine.packStep idx s').w, (Machine.packStep idx s').cap) =
      ((Machine.packStep idx s).w, (Machine.packStep idx s).cap) := by
    rw [← packOne_working, ← packOne_working, hw, hcap]
  obtain ⟨hw', hcap'⟩ := Prod.mk.inj hpacked
  simp [SameRegisters, hw', hcap', hr, hvalid, hrCap, hmode, hinv, hseq, hill]

/-! ### Commands and the edge, on equal registers -/

/-- PUSHI reads the registers alone (R113). -/
theorem SameRegisters.execPushi {idx : SymIdx} (hs : SameRegisters s' s) (h : exec (.pushi idx) s = .next t) :
    ∃ t', exec (.pushi idx) s' = .next t' ∧ SameRegisters t' t := by
  rcases execPushi_cases h with ⟨hmode, rfl⟩ | ⟨hmode, rfl⟩ | ⟨hmode, rfl⟩
  · exact ⟨_, execPushi_of_idle idx (hs.mode_eq.trans hmode), hs.reportError .seq⟩
  · exact ⟨_, execPushi_of_aborted idx (hs.mode_eq.trans hmode), hs⟩
  · exact ⟨_, execPushi_of_active idx (hs.mode_eq.trans hmode), hs.packStep idx⟩

/-- PUSHC reads the registers alone; a character of the Alphabet is pushed as its index (R112). -/
theorem SameRegisters.execPushc {ch : CharCode} (hs : SameRegisters s' s) (h : exec (.pushc ch) s = .next t) :
    ∃ t', exec (.pushc ch) s' = .next t' ∧ SameRegisters t' t := by
  rcases execPushc_cases h with ⟨hmode, rfl⟩ | ⟨hmode, rfl⟩ | ⟨hmode, hch, rfl⟩ | ⟨idx, _, hch, _⟩
  · exact ⟨_, execPushc_of_idle ch (hs.mode_eq.trans hmode), hs.reportError .seq⟩
  · exact ⟨_, execPushc_of_aborted ch (hs.mode_eq.trans hmode), hs⟩
  · exact ⟨_, execPushc_of_invalid (charOperand_eq_none_iff.1 hch) (hs.mode_eq.trans hmode), hs.reportError .inv⟩
  · have hpushi := execPushc_eq_execPushi (charOperand_eq_some_iff.1 hch)
    rw [hpushi] at h ⊢
    exact hs.execPushi h

/-- FINISH reads the registers alone (R114). -/
theorem SameRegisters.execFinish (hs : SameRegisters s' s) (h : exec .finish s = .next t) :
    ∃ t', exec .finish s' = .next t' ∧ SameRegisters t' t := by
  rcases execFinish_cases h with ⟨hmode, rfl⟩ | ⟨hmode, rfl⟩ | ⟨hmode, rfl⟩
  · exact ⟨_, execFinish_of_idle (hs.mode_eq.trans hmode), hs.reportError .seq⟩
  · exact ⟨_, execFinish_of_aborted (hs.mode_eq.trans hmode), hs.dropRun⟩
  · exact ⟨_, execFinish_of_active (hs.mode_eq.trans hmode), hs.commitRun⟩

/-- No command reads the host's ports. -/
theorem SameRegisters.exec {i : Instr} (hs : SameRegisters s' s) (h : exec i s = .next t) :
    ∃ t', exec i s' = .next t' ∧ SameRegisters t' t := by
  cases i with
  | nop => cases h; exact ⟨_, execNop_eq, hs⟩
  | start => cases h; exact ⟨_, execStart_eq, hs.beginRun⟩
  | pushc ch => exact hs.execPushc h
  | pushi idx => exact hs.execPushi h
  | finish => exact hs.execFinish h

/-- An edge reads the ports only through `rst` and the word it accepts (R67, R181). -/
theorem SameRegisters.step (hs : SameRegisters s' s) (hrst : s'.pins.rst = s.pins.rst)
    (hword : acceptedWord s'.pins = acceptedWord s.pins) (h : step s = .next t) :
    ∃ t', step s' = .next t' ∧ SameRegisters t' t := by
  have hoffers {w : CmdWord} (ho : s.pins.Offers w) : s'.pins.Offers w :=
    acceptedWord_eq_some_iff.1 (hword.trans (acceptedWord_eq_some_iff.2 ho))
  rcases step_cases h with ⟨hreset, rfl⟩ | ⟨hready, hvalid, rfl⟩ | ⟨w, i, ho, hd, hexec⟩ | ⟨w, e, ho, hd, rfl⟩
  · exact ⟨_, step_of_rst (hrst.trans hreset), resetRegisters_sameRegisters _ _⟩
  · have hready' : s'.pins.rst = false := hrst.trans hready
    have hnone : acceptedWord s'.pins = none := hword.trans (acceptedWord_eq_none_iff.2 (.inr hvalid))
    have hvalid' : s'.pins.cmdValid = false := (acceptedWord_eq_none_iff.1 hnone).resolve_left (by simp [hready'])
    exact ⟨_, step_of_idle hready' hvalid', hs.nextCycle⟩
  · rw [step_of_offers_command (hoffers ho) hd]
    exact hs.nextCycle.exec hexec
  · exact ⟨_, step_of_offers_illegal (hoffers ho) hd, hs.nextCycle.reportError .ill⟩

/-! ### The function ports -/

@[simp] theorem outputs_encValid (s : State) : (outputs s).encValid = (symEncode s.pins.encChar).1 := rfl
@[simp] theorem outputs_encIdx (s : State) : (outputs s).encIdx = (symEncode s.pins.encChar).2 := rfl
@[simp] theorem outputs_decChar (s : State) : (outputs s).decChar = symDecode s.pins.decIdx := rfl
@[simp] theorem outputs_diffEq (s : State) : (outputs s).diffEq = diffEq s.pins.diffA s.pins.diffB := rfl

/-- Settles O54: each function port is a function of its own inputs, and these inputs are neither `rst` nor part of
the accepted word. -/
theorem functionPortsTouchNoRegister : Obligations.FunctionPortsTouchNoRegister := by
  refine ⟨fun s t => ⟨?encode, ?decode, ?canonicalize, ?differ⟩, fun s t c i x a b hstep => ?registers⟩
  case encode => intro henc; simp [henc]
  case decode => intro hdec; simp [hdec]
  case canonicalize => intro hcanon; simp [hcanon]
  case differ => intro ha hb; simp [ha, hb]
  case registers =>
    refine SameRegisters.step (s := s) ?same rfl rfl hstep
    exact .refl s

end Sys2Proof.Machine
end

section
/-! Every command has one word: the round trip, the number of legal words, and the assembler's runs
(30_encoding.md R62 to R70). -/

namespace Sys2Proof

/-- The word of a command decodes to the command. -/
@[simp] theorem decode_encode (i : Instr) : decode (encode i) = .ok i := decode_eq_ok_iff_eq_encode.2 rfl

/-- Settles O1: a word decodes to a command exactly when it is the command's word. -/
theorem decodeOfEncodeIsTheCommand : Obligations.DecodeOfEncodeIsTheCommand := decode_encode

/-- Settles O2: the decoder keeps every field of the word it reads. -/
theorem encodeOfDecodeIsTheWord : Obligations.EncodeOfDecodeIsTheWord := fun _ _ => encode_of_decode

/-- Settles O6: the five commands by the round trip; the illegal words by their fields. -/
theorem specWordsDecode : Obligations.SpecWordsDecode :=
  ⟨decode_encode .nop, decode_encode .start, decode_encode (.pushc 0x47), decode_encode (.pushi 31),
    decode_encode .finish, rfl, rfl⟩

/-! ### Counting the legal words (R65) -/

theorem encode_injective : Function.Injective encode := fun i j h => by
  have hdecode : decode (encode i) = decode (encode j) := by rw [h]
  simpa using hdecode

/-- Every command, each once: PUSHC and PUSHI with each value of the operand. -/
def allCommands : List Instr :=
  (List.finRange 256).map (fun n => .pushc ⟨n⟩) ++ (List.finRange 32).map (fun n => .pushi ⟨n⟩) ++
    [.nop, .start, .finish]

theorem mem_allCommands (i : Instr) : i ∈ allCommands := by
  cases i with
  | nop | start | finish => simp [allCommands]
  | pushc ch => simp [allCommands, show ∃ n, BitVec.ofFin n = ch from ⟨ch.toFin, rfl⟩]
  | pushi idx => simp [allCommands, show ∃ n, BitVec.ofFin n = idx from ⟨idx.toFin, rfl⟩]

theorem length_allCommands : allCommands.length = 256 + 32 + 3 := by simp [allCommands]

theorem nodup_allCommands : allCommands.Nodup := by
  have hpushc : ((List.finRange 256).map fun n => Instr.pushc ⟨n⟩).Nodup :=
    (List.nodup_finRange 256).map fun m n h => by simpa using h
  have hpushi : ((List.finRange 32).map fun n => Instr.pushi ⟨n⟩).Nodup :=
    (List.nodup_finRange 32).map fun m n h => by simpa using h
  refine (hpushc.append hpushi ?_).append (by decide) ?_
  · simp [List.Disjoint]
  · intro i hi
    rcases List.mem_append.1 hi with h | h <;> obtain ⟨n, -, rfl⟩ := List.mem_map.1 h <;> simp

/-- An opcode above 4 leaves no legal field triple (R64, R65). -/
theorem exists_decode_error_of_op {w : CmdWord} (h : 5 ≤ (w.extractLsb' 12 4).toNat) : ∃ e, decode w = .error e :=
  exists_decode_error_iff.2 ((Fields.legal_eq_false_iff _).2 (.inl h))

/-- Settles O5: the legal words are the words of the commands, which differ as the commands do. -/
theorem legalWordsAreTwoHundredNinetyOne : Obligations.LegalWordsAreTwoHundredNinetyOne := by
  refine ⟨fun _ => exists_decode_error_of_op, allCommands.map encode, nodup_allCommands.map encode_injective,
    by rw [List.length_map, length_allCommands], fun w => ?_⟩
  simp only [List.mem_map, mem_allCommands, true_and, decode_eq_ok_iff_eq_encode, @eq_comm _ w]

/-! ### The assembler's pseudo-commands (R69, R70) -/

namespace Machine

theorem map_decode_map_encode (is : List Instr) : (is.map encode).map decode = is.map .ok := by simp

/-- A line that is no raw word stands for its commands: its words decode to them in order (R68). -/
theorem map_decode_asmWords {line : Asm} (h : asmWords line = (asmInstrs line).map encode) :
    (asmWords line).map decode = (asmInstrs line).map .ok := by
  rw [h, map_decode_map_encode]

/-- The indices of a well-formed PACKI line are below 32. -/
theorem lt_of_packi_wellFormed {ns : List Nat} (h : (Asm.packi ns).wellFormed = true) : ∀ n ∈ ns, n < 32 := by
  simp only [Asm.wellFormed, Bool.and_eq_true, List.all_eq_true, decide_eq_true_eq] at h
  exact h.2

/-- Settles O7: the words of both lines are the words of a list of commands, and decode to it. -/
theorem packLinesExpandToRuns : Obligations.PackLinesExpandToRuns := by
  refine ⟨fun str => ⟨by simp [asmWords, asmInstrs], ?_⟩, fun ns hwf => ⟨ns.map (BitVec.ofNat 5), ?_, ?_⟩⟩
  · rw [map_decode_asmWords rfl]; simp [asmInstrs]
  · rw [List.map_map]
    refine (List.map_congr_left (g := id) fun n hn => ?_).trans (List.map_id ns)
    exact Nat.mod_eq_of_lt (lt_of_packi_wellFormed hwf n hn)
  · rw [map_decode_asmWords rfl]; simp [asmInstrs]

end Machine

end Sys2Proof
end

section
/-! The Symbol Table: encode and decode are inverse on the Alphabet (40_symbol_table.md). -/

namespace Sys2Proof.Machine

variable {ch : CharCode} {idx : SymIdx}

/-- Every code of the ROM encodes to its index (R82, R84). -/
@[simp] theorem symEncode_symDecode (idx : SymIdx) : symEncode (symDecode idx) = (true, idx) := by
  revert idx; decide

/-- A code that encodes to an index is the ROM's code at that index (R82, R84). -/
theorem symDecode_of_symEncode (h : symEncode ch = (true, idx)) : symDecode idx = ch := by
  have hrom : ∀ ch, (symEncode ch).1 = true → symDecode (symEncode ch).2 = ch := by decide
  simpa [h] using hrom ch

theorem symDecode_injective : Function.Injective symDecode := fun i j h => by
  have hencode : symEncode (symDecode i) = symEncode (symDecode j) := by rw [h]
  simpa using hencode

theorem exists_symEncode_of_valid (h : (symEncode ch).1 = true) : ∃ idx, symEncode ch = (true, idx) :=
  ⟨(symEncode ch).2, Prod.ext h rfl⟩

/-- The Alphabet is the ROM's codes (R82). -/
theorem symEncode_valid_iff : (symEncode ch).1 = true ↔ ∃ i, symDecode i = ch := by
  constructor
  · intro h
    obtain ⟨idx, hidx⟩ := exists_symEncode_of_valid h
    exact ⟨idx, symDecode_of_symEncode hidx⟩
  · rintro ⟨i, rfl⟩
    rw [symEncode_symDecode]

/-- Settles O52: the two lookups are inverse, and each port is its lookup. -/
theorem symbolTableIsInvertible : Obligations.SymbolTableIsInvertible := by
  refine ⟨fun s t h => ?_, fun s t hvalid h => ?_⟩
  · simp [h]
  · exact (congrArg symDecode h).trans (symDecode_of_symEncode (Prod.ext hvalid rfl))

/-- Settles O53: the ROM is read off; its codes are told apart by encoding them, and encode searches the ROM. -/
theorem alphabetIsTheThirtyTwoCodes : Obligations.AlphabetIsTheThirtyTwoCodes :=
  ⟨by decide, fun _ _ h => symDecode_injective h, fun _ => symEncode_valid_iff, by decide⟩

/-- Settles O21: PUSHC is a push of the index its character encodes to. -/
theorem pushcOfAlphabetCharacterIsPushi : Obligations.PushcOfAlphabetCharacterIsPushi :=
  ⟨fun _ _ s h => execPushc_eq_execPushi h s, fun idx s => execPushc_eq_execPushi (symEncode_symDecode idx) s⟩

end Sys2Proof.Machine
end

section
/-! The canonical string and the Differ: what their outputs say of their operands (42_canonicalizer.md R145,
43_bit_differ.md R153, R156). -/

namespace Sys2Proof.Machine

variable {x y : Word}

/-! ### The canonical string determines the word -/

/-- A nibble reaches the narrow half of the ROM only (R141). -/
theorem canonChar_mem_symRomNarrow (x : Word) (k : Nat) : canonChar x k ∈ symRomNarrow := by
  have hrom : ∀ n : BitVec 4, symDecode (n.setWidth 5) ∈ symRomNarrow := by decide
  exact hrom _

theorem canonChar_eq_iff {k : Nat} : canonChar x k = canonChar y k ↔ nibble x k = nibble y k := by
  have hwiden : Function.Injective (fun n : BitVec 4 => n.setWidth 5) := by decide
  exact (symDecode_injective.comp hwiden).eq_iff

/-- A bit of nibble k (R140). -/
theorem getLsbD_nibble (x : Word) (k : Nat) {b : Nat} (hb : b < 4) :
    (nibble x k).getLsbD b = x.getLsbD (28 - 4 * k + b) := by
  simp only [nibble, BitVec.getLsbD_extractLsb', hb, decide_true, Bool.true_and]

/-- Eight nibbles are the word: bit j stands in nibble 7 - j / 4. -/
theorem eq_of_nibble_eq (h : ∀ k < 8, nibble x k = nibble y k) : x = y := by
  refine BitVec.eq_of_getLsbD_eq fun j hj => ?_
  have hbit := congrArg (BitVec.getLsbD · (j % 4)) (h (7 - j / 4) (by omega))
  simp only [getLsbD_nibble _ _ (show j % 4 < 4 by omega)] at hbit
  rwa [show 28 - 4 * (7 - j / 4) + j % 4 = j by omega] at hbit

/-- The first eight lanes of the port are its upper 64 bits (R143). -/
theorem canonOut_upper_lane (x : Word) {k : Nat} (hk : k < 8) :
    ((canonOut x).extractLsb' 16 64).extractLsb' (56 - 8 * k) 8 = canonChar x k := by
  rw [← canonOut_lane_nibble x hk, show 72 - 8 * k = 16 + (56 - 8 * k) by omega]
  refine BitVec.eq_of_getLsbD_eq fun b hb => ?_
  simp only [BitVec.getLsbD_extractLsb', hb, show 56 - 8 * k + b < 64 by omega, decide_true, Bool.true_and,
    Nat.add_assoc]

/-- Settles O49: each of the eight lanes is a narrow code that determines its nibble, and the nibbles are the word. -/
theorem canonicalFormIsInjective : Obligations.CanonicalFormIsInjective := by
  refine ⟨fun x k hk => ?_, fun x y h => eq_of_nibble_eq fun k hk => ?_, fun s t h => by simp [h]⟩
  · rw [canonOut_lane_nibble x hk]
    exact canonChar_mem_symRomNarrow x k
  · rw [← canonChar_eq_iff, ← canonOut_upper_lane x hk, h, canonOut_upper_lane y hk]

/-! ### The Differ -/

theorem diffXor_comm (a b : Word) : diffXor a b = diffXor b a := BitVec.xor_comm a b

theorem diffMatch_comm (a b : Word) : diffMatch a b = diffMatch b a := by
  simp only [diffMatch_eq_not_diffXor, diffXor_comm]

theorem diffEq_comm (a b : Word) : diffEq a b = diffEq b a := by simp only [diffEq, diffXor_comm]

theorem diffXor_self (a : Word) : diffXor a a = 0 := BitVec.xor_self

theorem diffEq_iff_diffXor {a b : Word} : diffEq a b = true ↔ diffXor a b = 0 := by simp [diffEq]

/-- The match word is all ones exactly when no bit differs (R151 to R153). -/
theorem diffMatch_eq_allOnes_iff {a b : Word} : diffMatch a b = 0xFFFFFFFF ↔ diffXor a b = 0 := by
  have hones : ~~~(0xFFFFFFFF : Word) = 0 := by decide
  rw [diffMatch_eq_not_diffXor, BitVec.not_eq_comm, hones, eq_comm]

/-- The pairs' second components are the match bits, bit 31 first (R154). -/
theorem diffPairs_map_snd (a b : Word) :
    (diffPairs a b).map Prod.snd = (List.range 32).map fun k => (diffMatch a b).getLsbD (31 - k) := by
  simp [diffPairs]

/-- Settles O51: equality, match word and XOR say the same, and XOR is symmetric and 0 on equal operands. -/
theorem differIsReflexiveAndSymmetric : Obligations.DifferIsReflexiveAndSymmetric := by
  intro s t
  simp only [outputs_diffEq, outputs_diffXor, outputs_diffMatch]
  refine ⟨diffEq_iff_diffXor, diffEq_iff_diffXor.trans diffMatch_eq_allOnes_iff.symm, fun h => ?_, fun ha hb => ?_⟩
  · have hxor : diffXor s.pins.diffA s.pins.diffB = 0 := by rw [h, diffXor_self]
    exact ⟨diffMatch_eq_allOnes_iff.2 hxor, hxor, diffEq_iff_diffXor.2 hxor⟩
  · rw [ha, hb, diffPairs_map_snd, diffPairs_map_snd]
    exact ⟨diffMatch_comm _ _, diffXor_comm _ _, diffEq_comm _ _, by rw [diffMatch_comm]⟩

end Sys2Proof.Machine
end

section
/-! Case A of the pack step on the state (41_bit_packer.md R102 to R104): a symbol that fits, and one that spills. -/

namespace Sys2Proof.Machine

variable {s : State} (k : PackedStream) (idx : SymIdx)

/-- Case A of R101 on the state. -/
theorem packStep_of_primary (hp : s.w.pc.toNat < 32) : packStep idx s = { s with w := s.w.pushPrimary idx } :=
  packStep_of_some idx (by simp [PackedStream.push?, hp])

/-- A push in a run with room in the primary is case A (R101). -/
theorem execPushi_of_primary (h : s.mode = .active) (hp : s.w.pc.toNat < 32) :
    exec (.pushi idx) s = .next { s with w := s.w.pushPrimary idx } := by
  rw [execPushi_of_active idx h, packStep_of_primary idx hp]

/-- A symbol writes no bit above those free at its cursor (R103). -/
theorem placeSymbol_written (word : Word) {c j : Nat} (hj : 32 - c ≤ j) (hfit : c + width idx ≤ 32) :
    (placeSymbol word c idx).getLsbD j = word.getLsbD j := by
  by_cases hj' : j < 32
  · rw [getLsbD_placeSymbol _ _ _ _ hj', getLsbD_idx_of_width_le idx (by unfold place; omega)]
    simp
  · rw [BitVec.getLsbD_of_ge _ _ (by omega), BitVec.getLsbD_of_ge _ _ (by omega)]

/-- A symbol that fits moves the primary and its cursor only (R103, R104). -/
theorem pushPrimary_eq_of_le (h : k.pc.toNat + width idx ≤ 32) :
    k.pushPrimary idx = { k with p := (k.pushPrimary idx).p, pc := (k.pushPrimary idx).pc } := by
  obtain ⟨hs, hsc⟩ := pushPrimary_secondary_of_le k idx h
  rw [← hs, ← hsc]

/-- Settles O17: case A without a spill, `placeSymbol` on the primary. -/
theorem fittingSymbolStandsBelowTheWrittenBits : Obligations.FittingSymbolStandsBelowTheWrittenBits := by
  intro idx s hactive hfit
  have hp : s.w.pc.toNat < 32 := by have := width_bounds idx; omega
  refine ⟨_, execPushi_of_primary idx hactive hp, fun j hj => ?_, fun j _ hj => ?_, pushPrimary_pc s.w idx hp, ?_⟩
  · rw [pushPrimary_p, getLsbD_placeSymbol _ _ _ _ hj, place]
  · rw [pushPrimary_p, placeSymbol_written _ _ hj hfit]
  · exact congrArg (fun k => { s with w := k }) (pushPrimary_eq_of_le s.w idx hfit)

/-- A symbol that reaches bit 0 lands flush there (R102). -/
theorem getLsbD_placeSymbol_flush (word : Word) {c j : Nat} (hc : 32 ≤ c + width idx) (hj : j < 32) :
    (placeSymbol word c idx).getLsbD j = (word.getLsbD j || idx.getLsbD j) := by
  rw [getLsbD_placeSymbol _ _ _ _ hj, show place c (width idx) = 0 by unfold place; omega]
  simp

/-- Settles O18: case A with a spill, `placeSymbol` flush at bit 0 of the primary and `spillInto` on the secondary. -/
theorem crossingSymbolSpills : Obligations.CrossingSymbolSpills := by
  intro idx s hactive hp hcross
  have hw := width_bounds idx
  obtain ⟨hs, hsc⟩ := pushPrimary_secondary_of_lt s.w idx hp hcross
  refine ⟨_, _, execPushi_of_primary idx hactive hp, rfl, by omega, by omega, fun j hj => ?_,
    pushPrimary_pc s.w idx hp, fun j hj => ?_, hsc, rfl⟩
  · rw [pushPrimary_p, getLsbD_placeSymbol_flush _ _ (by omega) hj]
  · rw [hs]
    exact getLsbD_spillInto idx s.w.s _ j (by omega) hj

end Sys2Proof.Machine
end

section
/-! Where the machine completes and where it stops (41_bit_packer.md R110 to R114, 93_implementation_defined.md U9). -/

namespace Sys2Proof.Machine

variable {s t : State} {i : Instr}

/-! ### MODE 0b11 -/

theorem pushWith_of_reserved (body : State → State) (h : s.mode = .reserved) :
    pushWith body s = .fault .reservedMode := by
  simp [pushWith, h]

theorem execPushi_of_reserved (idx : SymIdx) (h : s.mode = .reserved) :
    exec (.pushi idx) s = .fault .reservedMode := pushWith_of_reserved _ h

theorem execPushc_of_reserved (ch : CharCode) (h : s.mode = .reserved) :
    exec (.pushc ch) s = .fault .reservedMode := by
  simp only [exec, execPushc, pushWith_of_reserved _ h]

theorem execFinish_of_reserved (h : s.mode = .reserved) : exec .finish s = .fault .reservedMode := by
  simp [exec, execFinish, h]

/-- Settles O22: the pushes and FINISH read MODE; NOP and START do not. -/
theorem reservedModeStopsModeReaders : Obligations.ReservedModeStopsModeReaders := fun _ h =>
  ⟨fun ch => execPushc_of_reserved ch h, fun idx => execPushi_of_reserved idx h, execFinish_of_reserved h,
    ⟨_, execNop_eq⟩, ⟨_, execStart_eq, rfl⟩⟩

/-! ### Every other MODE -/

theorem pushWith_completes (body : State → State) (h : s.mode ≠ .reserved) : ∃ t, pushWith body s = .next t := by
  cases hmode : s.mode with
  | idle => exact ⟨_, pushWith_of_idle body hmode⟩
  | active => exact ⟨_, pushWith_of_active body hmode⟩
  | aborted => exact ⟨_, pushWith_of_aborted body hmode⟩
  | reserved => exact absurd hmode h

theorem execFinish_completes (h : s.mode ≠ .reserved) : ∃ t, exec .finish s = .next t := by
  cases hmode : s.mode with
  | idle => exact ⟨_, execFinish_of_idle hmode⟩
  | active => exact ⟨_, execFinish_of_active hmode⟩
  | aborted => exact ⟨_, execFinish_of_aborted hmode⟩
  | reserved => exact absurd hmode h

theorem exec_completes (i : Instr) (h : s.mode ≠ .reserved) : ∃ t, exec i s = .next t := by
  cases i with
  | nop => exact ⟨_, execNop_eq⟩
  | start => exact ⟨_, execStart_eq⟩
  | pushc ch =>
    simp only [exec, execPushc]
    exact pushWith_completes _ h
  | pushi idx => exact pushWith_completes _ h
  | finish => exact execFinish_completes h

/-- No command writes MODE 0b11 (R25). -/
theorem exec_mode_ne_reserved (hexec : exec i s = .next t) (h : s.mode ≠ .reserved) : t.mode ≠ .reserved := by
  cases i with
  | nop => cases hexec; exact h
  | start => cases hexec; simp
  | pushc ch =>
    rcases execPushc_cases hexec with ⟨_, rfl⟩ | ⟨_, rfl⟩ | ⟨_, _, rfl⟩ | ⟨idx, _, _, rfl⟩ <;> simp [h]
  | pushi idx => rcases execPushi_cases hexec with ⟨_, rfl⟩ | ⟨_, rfl⟩ | ⟨_, rfl⟩ <;> simp [h]
  | finish => rcases execFinish_cases hexec with ⟨_, rfl⟩ | ⟨_, rfl⟩ | ⟨_, rfl⟩ <;> simp [h]

/-- Settles O23: each legal MODE has its effect, none writes 0b11, and no command moves the ports. -/
theorem everyCommandCompletes : Obligations.EveryCommandCompletes := by
  intro i s h
  obtain ⟨t, hexec⟩ := exec_completes i h
  exact ⟨t, hexec, exec_mode_ne_reserved hexec h, exec_ports hexec⟩

/-- Settles O8: the accepted word's command runs after the ports have moved on, and the ports are no register. -/
theorem stepRunsTheDecodedCommand : Obligations.StepRunsTheDecodedCommand := fun s _ _ hoffers hdecode =>
  ⟨step_of_offers_command hoffers hdecode, nextCycle_sameRegisters s, fun _ _ hscript => nextCycle_cons s hscript,
    fun hscript => by simp [nextCycle, hscript]⟩

/-- An edge completes in every legal MODE. -/
theorem step_completes (h : s.mode ≠ .reserved) : ∃ t, step s = .next t := by
  cases hrst : s.pins.rst with
  | true => exact ⟨_, step_of_rst hrst⟩
  | false =>
    cases hvalid : s.pins.cmdValid with
    | false => exact ⟨_, step_of_idle hrst hvalid⟩
    | true =>
      have hoffers : s.pins.Offers s.pins.cmdWord := ⟨hrst, hvalid, rfl⟩
      cases hdecode : decode s.pins.cmdWord with
      | error e => exact ⟨_, step_of_offers_illegal hoffers hdecode⟩
      | ok i =>
        rw [step_of_offers_command hoffers hdecode]
        exact exec_completes i (by simpa using h)

end Sys2Proof.Machine
end

section
/-! What one edge can do to the registers, said once (30_encoding.md R67, 41_bit_packer.md R110 to R114), and the
rules on who writes W_*, MODE and the flags. -/

namespace Sys2Proof.Machine

variable {s t : State} {e : ErrorCause} {idx : SymIdx} {j : Nat}

/-- A cycle that offers a command which needs a run: FINISH or a push. -/
def OffersRunCommand (p : PortIn) : Prop :=
  p.Offers (encode .finish) ∨ (∃ idx, p.Offers (encode (.pushi idx))) ∨ ∃ ch, p.Offers (encode (.pushc ch))

/-- A cycle that offers a symbol to pack, by its index or by its character. -/
def OffersSymbol (p : PortIn) (idx : SymIdx) : Prop :=
  p.Offers (encode (.pushi idx)) ∨ ∃ ch, p.Offers (encode (.pushc ch)) ∧ symEncode ch = (true, idx)

/-- The effects an edge can have, each with the ports and the MODE that lead to it. -/
inductive Edge (s : State) : State → Prop where
  /-- Reset (R180). -/
  | reset (hrst : s.pins.rst = true) : Edge s (resetRegisters (nextCycle s))
  /-- No accepted word, NOP, or a push in an aborted run (R67, R110, R112). -/
  | quiet : Edge s (nextCycle s)
  /-- START (R111). -/
  | start (hoffers : s.pins.Offers 0x1000) : Edge s (beginRun (nextCycle s))
  /-- A push or FINISH outside a run (R163). -/
  | outside (hmode : s.mode = .idle) (hoffers : OffersRunCommand s.pins) :
    Edge s (reportError .seq (nextCycle s))
  /-- A character outside the Alphabet in a run (R161). -/
  | invalid (hmode : s.mode = .active) (ch : CharCode) (hoffers : s.pins.Offers (encode (.pushc ch)))
      (hch : (symEncode ch).1 = false) : Edge s (reportError .inv (nextCycle s))
  /-- A symbol in a run (R101). -/
  | symbol (hmode : s.mode = .active) (idx : SymIdx) (hoffers : OffersSymbol s.pins idx) :
    Edge s (packStep idx (nextCycle s))
  /-- FINISH in a run (R114). -/
  | commit (hmode : s.mode = .active) (hoffers : s.pins.Offers 0x4000) : Edge s (commitRun (nextCycle s))
  /-- FINISH in an aborted run (R114). -/
  | drop (hmode : s.mode = .aborted) (hoffers : s.pins.Offers 0x4000) : Edge s (dropRun (nextCycle s))
  /-- An illegal word (R164). -/
  | illegal (w : CmdWord) (x : IllegalWord) (hoffers : s.pins.Offers w) (hdecode : decode w = .error x) :
    Edge s (reportError .ill (nextCycle s))

theorem edge_of_exec {i : Instr} (hoffers : s.pins.Offers (encode i)) (h : exec i (nextCycle s) = .next t) :
    Edge s t := by
  have hmode : (nextCycle s).mode = s.mode := nextCycle_mode s
  cases i with
  | nop => cases h; exact .quiet
  | start => cases h; exact .start hoffers
  | pushc ch =>
    rcases execPushc_cases h with ⟨hm, rfl⟩ | ⟨_, rfl⟩ | ⟨hm, hch, rfl⟩ | ⟨idx, hm, hch, rfl⟩
    · exact .outside (hmode ▸ hm) (.inr (.inr ⟨ch, hoffers⟩))
    · exact .quiet
    · exact .invalid (hmode ▸ hm) ch hoffers (charOperand_eq_none_iff.1 hch)
    · exact .symbol (hmode ▸ hm) idx (.inr ⟨ch, hoffers, charOperand_eq_some_iff.1 hch⟩)
  | pushi idx =>
    rcases execPushi_cases h with ⟨hm, rfl⟩ | ⟨_, rfl⟩ | ⟨hm, rfl⟩
    · exact .outside (hmode ▸ hm) (.inr (.inl ⟨idx, hoffers⟩))
    · exact .quiet
    · exact .symbol (hmode ▸ hm) idx (.inl hoffers)
  | finish =>
    rcases execFinish_cases h with ⟨hm, rfl⟩ | ⟨hm, rfl⟩ | ⟨hm, rfl⟩
    · exact .outside (hmode ▸ hm) (.inl hoffers)
    · exact .drop (hmode ▸ hm) hoffers
    · exact .commit (hmode ▸ hm) hoffers

/-- Every edge has one of these effects. -/
theorem edge_of_step (h : step s = .next t) : Edge s t := by
  rcases step_cases h with ⟨hrst, rfl⟩ | ⟨_, _, rfl⟩ | ⟨w, i, ho, hd, hexec⟩ | ⟨w, x, ho, hd, rfl⟩
  · exact .reset hrst
  · exact .quiet
  · exact edge_of_exec (encode_of_decode hd ▸ ho) hexec
  · exact .illegal w x ho hd

/-! ### W_* (R22, R103) -/

/-- W_* after a pack step: the symbol packed, or as before when there is no room (R101). -/
@[simp] theorem packStep_w (idx : SymIdx) (s : State) : (packStep idx s).w = (s.w.push? idx).getD s.w := by
  unfold packStep; cases s.w.push? idx <;> rfl

/-- Settles O27: of the edge's effects only reset, START and the pack step write W_*. -/
theorem workingRegistersHaveFourWriters : Obligations.WorkingRegistersHaveFourWriters := by
  intro s t hstep hne
  cases edge_of_step hstep with
  | reset hrst => exact .inl hrst
  | start hoffers => exact .inr (.inl hoffers)
  | symbol hmode idx hoffers => exact .inr (.inr ⟨hmode, idx, by simp, hoffers⟩)
  | quiet | outside | invalid | commit | drop | illegal => simp at hne

theorem placeSymbol_keeps {word : Word} (c : Nat) (idx : SymIdx) (h : word.getLsbD j = true) :
    (placeSymbol word c idx).getLsbD j = true := by
  rw [placeSymbol, BitVec.getLsbD_or, h, Bool.true_or]

theorem spillInto_keeps {word : Word} (ob : Nat) (idx : SymIdx) (h : word.getLsbD j = true) :
    (spillInto word ob idx).getLsbD j = true := by
  rw [spillInto, BitVec.getLsbD_or, h, Bool.true_or]

/-- Nothing packed is taken back from `k` to `k'`: the set bits stay set, and the primary cursor does not go back. -/
structure PackedStream.Extends (k k' : PackedStream) : Prop where
  primary (j : Nat) : k.p.getLsbD j = true → k'.p.getLsbD j = true
  secondary (j : Nat) : k.s.getLsbD j = true → k'.s.getLsbD j = true
  cursor : k.pc.toNat ≤ k'.pc.toNat

theorem PackedStream.Extends.refl (k : PackedStream) : k.Extends k := ⟨fun _ => id, fun _ => id, le_rfl⟩

theorem extends_pushPrimary {k : PackedStream} (idx : SymIdx) (h : k.pc.toNat < 32) :
    k.Extends (k.pushPrimary idx) where
  primary _ hj := by rw [pushPrimary_p]; exact placeSymbol_keeps _ idx hj
  secondary _ hj := by
    by_cases hfit : k.pc.toNat + width idx ≤ 32
    · rwa [(pushPrimary_secondary_of_le k idx hfit).1]
    · rw [(pushPrimary_secondary_of_lt k idx h (by omega)).1]
      exact spillInto_keeps _ idx hj
  cursor := by rw [pushPrimary_pc k idx h]; omega

theorem extends_pushSecondary (k : PackedStream) (idx : SymIdx) : k.Extends (k.pushSecondary idx) where
  primary _ := id
  secondary _ := placeSymbol_keeps _ idx
  cursor := le_rfl

/-- Packing one symbol takes nothing back (R103). -/
theorem extends_push? (k : PackedStream) (idx : SymIdx) : k.Extends ((k.push? idx).getD k) := by
  rcases push?_cases k idx with ⟨hp, hpush⟩ | ⟨_, _, hpush⟩ | ⟨_, hpush⟩ <;> rw [hpush]
  · exact extends_pushPrimary idx hp
  · exact extends_pushSecondary k idx
  · exact .refl k

/-- Settles O30: beside reset and START the only effect on W_* is the pack step, which takes nothing back. -/
theorem packingNeverClearsABit : Obligations.PackingNeverClearsABit := by
  intro s t j hstep hrst hstart
  have hext : s.w.Extends t.w := by
    cases edge_of_step hstep with
    | reset hrst' => simp [hrst] at hrst'
    | start hoffers => exact absurd hoffers hstart
    | symbol hmode idx hoffers => simpa using extends_push? s.w idx
    | quiet | outside | invalid | commit | drop | illegal => simpa using PackedStream.Extends.refl s.w
  exact ⟨hext.primary j, hext.secondary j, hext.cursor⟩

/-! ### MODE (R25) -/

/-- Settles O28: five of the edge's effects write MODE, each with its cause. -/
theorem modeMovesAlongTheRunDiagram : Obligations.ModeMovesAlongTheRunDiagram := by
  intro s t hstep hne
  cases edge_of_step hstep with
  | reset hrst => exact .inl ⟨rfl, .inl hrst⟩
  | start hoffers => exact .inr (.inl ⟨rfl, hoffers⟩)
  | invalid hmode ch hoffers hch => exact .inr (.inr ⟨rfl, hmode, ch, hoffers, hch, by simp⟩)
  | commit hmode hoffers => exact .inl ⟨rfl, .inr ⟨hoffers, .inl hmode⟩⟩
  | drop hmode hoffers => exact .inl ⟨rfl, .inr ⟨hoffers, .inr hmode⟩⟩
  | quiet | outside | symbol | illegal => simp at hne

/-! ### The flags (R160 to R164) -/

theorem eq_of_rises_reportError {c : ErrorCause} (hs : errorFlag e s = false)
    (ht : errorFlag e (reportError c (nextCycle s)) = true) : e = c := by
  simpa [hs] using ht

theorem rst_of_offers {w : CmdWord} (h : s.pins.Offers w) : s.pins.rst = false := h.1

theorem OffersRunCommand.rst (h : OffersRunCommand s.pins) : s.pins.rst = false := by
  rcases h with h | ⟨_, h⟩ | ⟨_, h⟩ <;> exact rst_of_offers h

theorem OffersSymbol.rst (h : OffersSymbol s.pins idx) : s.pins.rst = false := by
  rcases h with h | ⟨_, h, _⟩ <;> exact rst_of_offers h

/-- A flag that a pack step raises is CAP, of a full accumulator, which stays as it was (R107). -/
theorem packStep_rises (hs : errorFlag e s = false) (ht : errorFlag e (packStep idx s) = true) :
    e = .cap ∧ s.w.Full ∧ packStep idx s = reportError .cap s := by
  obtain rfl := (raisesAtMost_packStep idx s).eq_of_rises hs ht
  have hfull : s.w.Full := ((packStep_cap_iff idx).1 ht).resolve_left (by simpa [errorFlag] using hs)
  exact ⟨rfl, hfull, packStep_of_full idx hfull⟩

/-- Settles O29: each of the four reporting effects raises its own flag, and the others raise none. -/
theorem risingFlagHasItsCause : Obligations.RisingFlagHasItsCause := by
  intro s t e hstep hs ht
  cases edge_of_step hstep with
  | outside hmode hoffers =>
    obtain rfl := eq_of_rises_reportError hs ht
    exact ⟨hoffers.rst, by simp, by simp, hmode, by simpa using hmode, hoffers⟩
  | invalid hmode ch hoffers hch =>
    obtain rfl := eq_of_rises_reportError hs ht
    exact ⟨rst_of_offers hoffers, by simp, by simp, hmode, rfl, ch, hoffers, hch⟩
  | illegal w x hoffers hdecode =>
    obtain rfl := eq_of_rises_reportError hs ht
    exact ⟨rst_of_offers hoffers, by simp, by simp, by simp, w, hoffers, x, hdecode⟩
  | symbol hmode idx hoffers =>
    obtain ⟨rfl, hfull, hstep'⟩ := packStep_rises (by simpa using hs) ht
    have hcause : (∃ idx, s.pins.Offers (encode (.pushi idx))) ∨
        ∃ ch, s.pins.Offers (encode (.pushc ch)) ∧ (symEncode ch).1 = true :=
      hoffers.imp (fun h => ⟨idx, h⟩) fun ⟨ch, h, hch⟩ => ⟨ch, h, by rw [hch]⟩
    rw [nextCycle_w] at hfull
    rw [hstep']
    exact ⟨hoffers.rst, by simp, by simp, hmode, by simpa using hmode, hfull.1, hfull.2, hcause⟩
  | reset | quiet | start | commit | drop => simp [hs] at ht

end Sys2Proof.Machine
end

section
/-! Consistent states (41_bit_packer.md R106, 60_exceptions.md section 1): the reset state is one, every effect of an
edge keeps one, and so a run after reset never stops. -/

namespace Sys2Proof.Machine

variable {s t : State}

/-! ### Each effect of an edge keeps consistency -/

/-- The ports are no part of it. -/
theorem SameRegisters.consistent (h : SameRegisters t s) (hs : s.Consistent) : t.Consistent := by
  obtain ⟨hw, hr, hvalid, hrCap, hmode, hinv, hcap, hseq, _⟩ := h
  constructor <;> simp only [hw, hr, hvalid, hrCap, hmode, hinv, hcap, hseq]
  exacts [hs.mode_legal, hs.working, hs.result, hs.unset, hs.active_valid, hs.aborted_invalid, hs.seq_idle, hs.cap_full,
    hs.rCap_full]

theorem consistent_reset : State.reset.Consistent where
  mode_legal := by decide
  working := wellPacked_empty
  result := wellPacked_empty
  unset _ := ⟨rfl, rfl⟩
  active_valid := by decide
  aborted_invalid := by decide
  seq_idle := by decide
  cap_full h := by cases h
  rCap_full h := by cases h

theorem consistent_resetRegisters (s : State) : (resetRegisters s).Consistent :=
  (resetRegisters_sameRegisters State.reset s).consistent consistent_reset

theorem consistent_nextCycle (hs : s.Consistent) : (nextCycle s).Consistent :=
  (nextCycle_sameRegisters s).consistent hs

theorem consistent_beginRun (hs : s.Consistent) : (beginRun s).Consistent where
  mode_legal := by simp
  working := wellPacked_empty
  result := hs.result
  unset := hs.unset
  active_valid _ := rfl
  aborted_invalid := by simp
  seq_idle _ := rfl
  cap_full h := by cases h
  rCap_full := hs.rCap_full

theorem consistent_commitRun (hs : s.Consistent) : (commitRun s).Consistent where
  mode_legal := by simp
  working := hs.working
  result := hs.working
  unset h := by cases h
  active_valid := by simp
  aborted_invalid := by simp
  seq_idle h := absurd rfl h
  cap_full := hs.cap_full
  rCap_full := hs.cap_full

theorem consistent_dropRun (hs : s.Consistent) : (dropRun s).Consistent :=
  { hs with
    mode_legal := by simp
    active_valid := by simp
    aborted_invalid := by simp
    seq_idle := fun h => absurd rfl h }

/-- SEQ is reported outside a run only (R163). -/
theorem consistent_reportError_seq (hs : s.Consistent) (h : s.mode = .idle) : (reportError .seq s).Consistent :=
  { hs with seq_idle := fun hne => absurd h hne }

/-- INV is reported in a run, and aborts it (R112). -/
theorem consistent_reportError_inv (hs : s.Consistent) (h : s.mode = .active) : (reportError .inv s).Consistent :=
  { hs with
    mode_legal := by simp
    active_valid := by simp
    aborted_invalid := fun _ => rfl
    seq_idle := fun _ => hs.seq_idle (by simp [h]) }

theorem consistent_reportError_ill (hs : s.Consistent) : (reportError .ill s).Consistent := { hs with }

/-- CAP is reported of full accumulators only (R162). -/
theorem consistent_reportError_cap (hs : s.Consistent) (h : s.w.Full) : (reportError .cap s).Consistent :=
  { hs with cap_full := fun _ => h }

/-- A symbol is packed only where there is room, and there CAP is not set. -/
theorem consistent_packStep (idx : SymIdx) (hs : s.Consistent) : (packStep idx s).Consistent := by
  rcases packStep_cases idx s with ⟨k, hpush, hstep⟩ | ⟨hfull, hstep⟩ <;> rw [hstep]
  · have hroom : ¬ s.w.Full := fun hfull => by simp [(push?_eq_none_iff s.w idx).2 hfull] at hpush
    exact { hs with
      working := wellPacked_push? s.w idx hs.working hpush
      cap_full := fun hcap => absurd (hs.cap_full hcap) hroom }
  · exact consistent_reportError_cap hs hfull

/-! ### Edges and runs -/

/-- Settles O31: both Packed Streams are that of no symbols, and MODE and the flags are clear. -/
theorem resetIsConsistent : Obligations.ResetIsConsistent := consistent_reset

theorem consistent_of_edge (hs : s.Consistent) (hedge : Edge s t) : t.Consistent := by
  have hnext := consistent_nextCycle hs
  have hmode : (nextCycle s).mode = s.mode := nextCycle_mode s
  cases hedge with
  | reset => exact consistent_resetRegisters _
  | quiet => exact hnext
  | start => exact consistent_beginRun hnext
  | outside h => exact consistent_reportError_seq hnext (hmode.trans h)
  | invalid h => exact consistent_reportError_inv hnext (hmode.trans h)
  | symbol h idx => exact consistent_packStep idx hnext
  | commit => exact consistent_commitRun hnext
  | drop => exact consistent_dropRun hnext
  | illegal => exact consistent_reportError_ill hnext

/-- Settles O32: each effect that an edge can have keeps a consistent state consistent. -/
theorem everyStepKeepsConsistency : Obligations.EveryStepKeepsConsistency := fun _ _ hs hstep =>
  consistent_of_edge hs (edge_of_step hstep)

/-- A property that lets the machine step, and that the step keeps, holds after any number of steps. -/
theorem run_of_invariant {P : State → Prop} (hP : ∀ s, P s → ∃ t, step s = .next t ∧ P t) (n : Nat) (hs : P s) :
    ∃ t, Host.Core.run Sys2Proof.core n s = .next t ∧ P t := by
  induction n generalizing s with
  | zero => exact ⟨s, rfl, hs⟩
  | succ n ih =>
    obtain ⟨t, hstep, ht⟩ := hP s hs
    rw [run_succ_of_step hstep]
    exact ih ht

theorem step_of_consistent (hs : s.Consistent) : ∃ t, step s = .next t ∧ t.Consistent := by
  obtain ⟨t, hstep⟩ := step_completes hs.mode_legal
  exact ⟨t, hstep, everyStepKeepsConsistency s t hs hstep⟩

/-- Settles O33: the reset edge answers a consistent state, and from there every edge completes. -/
theorem blockNeverStopsAfterReset : Obligations.BlockNeverStopsAfterReset := by
  intro s n hrst
  rw [run_succ_of_step (step_of_rst hrst)]
  exact run_of_invariant (fun _ => step_of_consistent) n (consistent_resetRegisters _)

end Sys2Proof.Machine
end

section
/-! Sequences of symbols: the cursors count the bits packed, and a symbol is dropped when 64 bits are
(00_scope.md R9, 41_bit_packer.md R106, R107). -/

namespace Sys2Proof.Machine

variable {k k' : PackedStream} {idx : SymIdx} {idxs : List SymIdx} {n : Nat}

/-! ### Widths (R100) -/

theorem width_of_narrow (h : idx.toNat < 16) : width idx = 4 := by revert idx; decide

theorem width_of_wide (h : 16 ≤ idx.toNat) : width idx = 5 := by revert idx; decide

@[simp] theorem totalWidth_nil : totalWidth [] = 0 := rfl

theorem totalWidth_append (idxs more : List SymIdx) :
    totalWidth (idxs ++ more) = totalWidth idxs + totalWidth more := by
  simp [totalWidth]

theorem totalWidth_singleton (idx : SymIdx) : totalWidth [idx] = width idx := by simp [totalWidth]

theorem totalWidth_concat (idxs : List SymIdx) (idx : SymIdx) :
    totalWidth (idxs ++ [idx]) = totalWidth idxs + width idx := by
  rw [totalWidth_append, totalWidth_singleton]

theorem totalWidth_of_const {c : Nat} (h : ∀ i ∈ idxs, width i = c) : totalWidth idxs = idxs.length * c := by
  simpa [totalWidth] using List.sum_eq_card_nsmul (idxs.map width) c (by simpa using h)

theorem totalWidth_of_narrow (h : ∀ i ∈ idxs, i.toNat < 16) : totalWidth idxs = idxs.length * 4 :=
  totalWidth_of_const fun i hi => width_of_narrow (h i hi)

theorem totalWidth_of_wide (h : ∀ i ∈ idxs, 16 ≤ i.toNat) : totalWidth idxs = idxs.length * 5 :=
  totalWidth_of_const fun i hi => width_of_wide (h i hi)

theorem totalWidth_bounds (idxs : List SymIdx) :
    idxs.length * 4 ≤ totalWidth idxs ∧ totalWidth idxs ≤ idxs.length * 5 := by
  induction idxs with
  | nil => simp
  | cons i idxs ih =>
    have hw := width_bounds i
    have hcons : totalWidth (i :: idxs) = width i + totalWidth idxs := by simp [totalWidth]
    rw [hcons, List.length_cons]
    omega

/-! ### The cursors count the bits (R106) -/

/-- The cursors of `k` stand where `n` packed bits put them. -/
structure PackedStream.Counts (k : PackedStream) (n : Nat) : Prop where
  primary : n < 32 → k.pc.toNat = n ∧ k.sc.toNat = 0
  secondary : 32 ≤ n → 32 ≤ k.pc.toNat ∧ k.pc.toNat ≤ 36 ∧ 32 + k.sc.toNat = n

theorem counts_empty : PackedStream.empty.Counts 0 := ⟨fun _ => ⟨rfl, rfl⟩, fun h => absurd h (by decide)⟩

theorem PackedStream.Counts.full_iff (hk : k.Counts n) : k.Full ↔ 64 ≤ n := by
  obtain ⟨hp, hs⟩ := hk
  unfold PackedStream.Full
  omega

theorem PackedStream.Counts.lt_32_iff (hk : k.Counts n) : k.pc.toNat < 32 ↔ n < 32 := by
  obtain ⟨hp, hs⟩ := hk
  omega

theorem counts_pushPrimary (hk : k.Counts n) (h : k.pc.toNat < 32) : (k.pushPrimary idx).Counts (n + width idx) := by
  have hw := width_bounds idx
  have hpc := pushPrimary_pc k idx h
  obtain ⟨hkpc, hksc⟩ := hk.primary (hk.lt_32_iff.1 h)
  by_cases hfit : k.pc.toNat + width idx ≤ 32
  · have hsc := congrArg BitVec.toNat (pushPrimary_secondary_of_le k idx hfit).2
    constructor <;> omega
  · have hsc := (pushPrimary_secondary_of_lt k idx h (by omega)).2
    constructor <;> omega

theorem counts_pushSecondary (hk : k.Counts n) (h : 32 ≤ k.pc.toNat) (h' : k.sc.toNat < 32) :
    (k.pushSecondary idx).Counts (n + width idx) := by
  have hsc := pushSecondary_sc k idx h'
  have hn : 32 ≤ n := Nat.le_of_not_lt fun hn => by have := hk.lt_32_iff.2 hn; omega
  obtain ⟨hpc, hpc', hksc⟩ := hk.secondary hn
  exact ⟨fun _ => by omega, fun _ => ⟨hpc, hpc', by omega⟩⟩

/-- One symbol packed counts its width (R101). -/
theorem counts_push? (hk : k.Counts n) (h : k.push? idx = some k') : k'.Counts (n + width idx) := by
  rcases push?_cases k idx with ⟨hp, hpush⟩ | ⟨hp, hs, hpush⟩ | ⟨_, hpush⟩ <;> rw [hpush] at h <;> cases h
  · exact counts_pushPrimary hk hp
  · exact counts_pushSecondary hk hp hs

/-! ### One more symbol -/

/-- What one more symbol does: it is packed, or dropped when both accumulators are saturated (R107). -/
theorem pack_concat_cases (idxs : List SymIdx) (idx : SymIdx) :
    (∃ k, (pack idxs).1.push? idx = some k ∧ pack (idxs ++ [idx]) = (k, (pack idxs).2)) ∨
    ((pack idxs).1.Full ∧ pack (idxs ++ [idx]) = ((pack idxs).1, true)) := by
  rw [pack_concat, packOne]
  cases h : (pack idxs).1.push? idx with
  | some k => exact .inl ⟨k, rfl, rfl⟩
  | none => exact .inr ⟨(push?_eq_none_iff _ _).1 h, rfl⟩

theorem counts_pack (h : (pack idxs).2 = false) : (pack idxs).1.Counts (totalWidth idxs) := by
  induction idxs using List.reverseRecOn with
  | nil => exact counts_empty
  | append_singleton idxs idx ih =>
    rw [totalWidth_concat]
    rcases pack_concat_cases idxs idx with ⟨k, hpush, hpack⟩ | ⟨_, hpack⟩ <;> rw [hpack] at h ⊢
    · exact counts_push? (ih h) hpush
    · cases h

/-- Settles O34: each symbol packed counts its width. -/
theorem cursorsCountThePackedBits : Obligations.CursorsCountThePackedBits := fun _ h =>
  ⟨(counts_pack h).primary, (counts_pack h).secondary⟩

theorem wellPacked_pack (idxs : List SymIdx) : (pack idxs).1.WellPacked := by
  induction idxs using List.reverseRecOn with
  | nil => exact wellPacked_empty
  | append_singleton idxs idx ih =>
    rcases pack_concat_cases idxs idx with ⟨k, hpush, hpack⟩ | ⟨_, hpack⟩ <;> rw [hpack]
    · exact wellPacked_push? _ idx ih hpush
    · exact ih

/-! ### The capacity of a run (R9) -/

theorem totalWidth_dropLast_le (idxs : List SymIdx) : totalWidth idxs.dropLast ≤ totalWidth idxs :=
  ((List.dropLast_sublist idxs).map width).sum_le_sum (by simp)

/-- Once a symbol is dropped the run has dropped one (R107). -/
theorem pack_concat_dropped (idx : SymIdx) (h : (pack idxs).2 = true) : (pack (idxs ++ [idx])).2 = true := by
  rcases pack_concat_cases idxs idx with ⟨k, _, hpack⟩ | ⟨_, hpack⟩ <;> rw [hpack]
  exact h

/-- The first symbol is dropped when the accumulators are full. -/
theorem pack_concat_dropped_iff_full (idx : SymIdx) (h : (pack idxs).2 = false) :
    (pack (idxs ++ [idx])).2 = true ↔ (pack idxs).1.Full := by
  rcases pack_concat_cases idxs idx with ⟨k, hpush, hpack⟩ | ⟨hfull, hpack⟩ <;> rw [hpack]
  · simp [← push?_eq_none_iff _ idx, hpush, h]
  · simp [hfull]

/-- A symbol is dropped exactly when the symbols before the last are at least 64 bits. -/
theorem pack_dropped_iff (idxs : List SymIdx) : (pack idxs).2 = true ↔ 64 ≤ totalWidth idxs.dropLast := by
  induction idxs using List.reverseRecOn with
  | nil => simp
  | append_singleton idxs idx ih =>
    rw [List.dropLast_concat]
    cases hdropped : (pack idxs).2 with
    | true => simp [pack_concat_dropped idx hdropped, (ih.1 hdropped).trans (totalWidth_dropLast_le idxs)]
    | false => rw [pack_concat_dropped_iff_full idx hdropped, (counts_pack hdropped).full_iff]

theorem pack_not_dropped (h : totalWidth idxs < 64) : (pack idxs).2 = false := by
  rw [← Bool.not_eq_true, pack_dropped_iff]
  exact Nat.not_le_of_lt (lt_of_le_of_lt (totalWidth_dropLast_le idxs) h)

/-- Settles O35: all but the last symbol take 4 or 5 bits each, and a drop needs 64 of them. -/
theorem runHoldsThirteenToSixteenSymbols : Obligations.RunHoldsThirteenToSixteenSymbols := by
  intro idxs
  have hlen : idxs.dropLast.length = idxs.length - 1 := List.length_dropLast
  have hbounds := totalWidth_bounds idxs.dropLast
  simp only [← Bool.not_eq_true, pack_dropped_iff]
  refine ⟨fun _ => by omega, fun _ => by omega, fun hwide => ?_, fun hnarrow => ?_⟩
  · have := totalWidth_of_wide fun i hi => hwide i (List.mem_of_mem_dropLast hi)
    omega
  · have := totalWidth_of_narrow fun i hi => hnarrow i (List.mem_of_mem_dropLast hi)
    omega

end Sys2Proof.Machine
end

section
/-! Runs: what the machine answers to a list of commands the host offers, with idle and NOP cycles between them
(30_encoding.md R67, 41_bit_packer.md R112 to R114, R123). -/

namespace Sys2Proof.Machine

variable {s s' t u : State} {p : PortIn} {w : CmdWord} {cycles rest : List PortIn} {is : List Instr} {i : Instr}

/-! ### Commands one after another -/

/-- The commands, executed in order, lead from one state to the other. -/
inductive Executes : List Instr → State → State → Prop where
  | nil (s : State) : Executes [] s s
  | cons {i : Instr} {is : List Instr} {s t u : State} (head : exec i s = .next t) (tail : Executes is t u) :
    Executes (i :: is) s u

theorem Executes.append {js : List Instr} (h : Executes is s t) (h' : Executes js t u) :
    Executes (is ++ js) s u := by
  induction h with
  | nil => exact h'
  | cons head _ ih => exact .cons head (ih h')

theorem Executes.concat (h : Executes is s t) (hi : exec i t = .next u) : Executes (is ++ [i]) s u :=
  h.append (.cons hi (.nil u))

/-! ### The cycles in which the host offers them -/

/-- A cycle without a word, or with NOP's, adds no command. -/
theorem acceptedWords_cons_of_skipped (h : acceptedWord p = none ∨ acceptedWord p = some 0x0000) :
    acceptedWords (p :: rest) = acceptedWords rest := by
  rcases h with h | h <;> simp [acceptedWords, h]

theorem acceptedWords_cons_of_command (h : acceptedWord p = some w) (hw : w ≠ 0x0000) :
    acceptedWords (p :: rest) = w :: acceptedWords rest := by
  rw [acceptedWords, List.filterMap_cons_some h, List.filter_cons_of_pos (by simpa using hw), acceptedWords]

/-- No edge moves the ports but the passing of the cycle. -/
theorem step_ports (h : step s = .next t) : t.pins = (nextCycle s).pins ∧ t.script = (nextCycle s).script := by
  rcases step_cases h with ⟨_, rfl⟩ | ⟨_, _, rfl⟩ | ⟨_, _, _, _, hexec⟩ | ⟨_, _, _, _, rfl⟩
  · simp
  · simp
  · exact exec_ports hexec
  · simp

/-- After the first of the cycles the host drives the others (log 1). -/
theorem drive_of_step_drive (h : step (drive (p :: rest) s) = .next t) : drive rest t = t := by
  obtain ⟨hpins, hscript⟩ := step_ports h
  cases rest with
  | nil => rfl
  | cons q rest =>
    rw [nextCycle_drive_cons, drive_cons_pins] at hpins
    rw [nextCycle_drive_cons, drive_cons_script] at hscript
    rw [drive, ← hpins, ← hscript]

theorem run_drive_cons {n : Nat} (h : step (drive (p :: rest) s) = .next t) :
    Host.Core.run Sys2Proof.core (n + 1) (drive (p :: rest) s) = Host.Core.run Sys2Proof.core n (drive rest t) := by
  rw [run_succ_of_step h, drive_of_step_drive h]

theorem drive_sameRegisters (cycles : List PortIn) (s : State) : SameRegisters (drive cycles s) s := by
  simp [SameRegisters]

/-- A cycle without a word, or with NOP's, moves no register (R67, R110). -/
theorem step_of_skipped (hrst : s.pins.rst = false)
    (h : acceptedWord s.pins = none ∨ acceptedWord s.pins = some 0x0000) : step s = .next (nextCycle s) := by
  rcases h with h | h
  · exact step_of_idle hrst ((acceptedWord_eq_none_iff.1 h).resolve_left (by simp [hrst]))
  · exact step_of_offers_command (acceptedWord_eq_some_iff.1 h) (decode_encode .nop)

/-- Over cycles without reset the machine executes the accepted commands, NOP left out, and nothing else. -/
theorem run_of_executes (hrst : ∀ p ∈ cycles, p.rst = false) (hwords : acceptedWords cycles = is.map encode)
    (hexec : Executes is s t) (hsame : SameRegisters s' s) :
    ∃ t', Host.Core.run Sys2Proof.core cycles.length (drive cycles s') = .next t' ∧ SameRegisters t' t := by
  induction cycles generalizing is s s' with
  | nil =>
    obtain rfl : is = [] := by simpa [acceptedWords] using hwords
    cases hexec
    exact ⟨s', rfl, hsame⟩
  | cons p rest ih =>
    have hrest : ∀ q ∈ rest, q.rst = false := fun q hq => hrst q (List.mem_cons_of_mem p hq)
    have hports : SameRegisters (nextCycle (drive (p :: rest) s')) s :=
      (nextCycle_sameRegisters _).trans ((drive_sameRegisters _ _).trans hsame)
    by_cases hskip : acceptedWord p = none ∨ acceptedWord p = some 0x0000
    · rw [acceptedWords_cons_of_skipped hskip] at hwords
      rw [List.length_cons, run_drive_cons (step_of_skipped (hrst p List.mem_cons_self) hskip)]
      exact ih hrest hwords hexec hports
    · obtain ⟨hnone, hnop⟩ := not_or.1 hskip
      obtain ⟨w, hw⟩ := Option.ne_none_iff_exists'.1 hnone
      rw [acceptedWords_cons_of_command hw fun h => hnop (h ▸ hw)] at hwords
      cases hexec with
      | nil => cases hwords
      | cons head tail =>
        obtain ⟨rfl, hwords'⟩ := List.cons.inj hwords
        obtain ⟨t', hexec', hsame'⟩ := hports.exec head
        have hoffers : (drive (p :: rest) s').pins.Offers _ := acceptedWord_eq_some_iff.1 hw
        have hstep := step_of_offers_command hoffers (decode_encode _)
        rw [List.length_cons, run_drive_cons (hstep.trans hexec')]
        exact ih hrest hwords' tail hsame'

/-! ### A run of symbols -/

/-- The command pushes the symbol, by its index or by its character. -/
def Pushes (i : Instr) (idx : SymIdx) : Prop := i = .pushi idx ∨ ∃ ch, i = .pushc ch ∧ symEncode ch = (true, idx)

/-- Pushes in a run fold the pack step of R123 over W_* and CAP. -/
theorem executes_pushes {pushes : List Instr} {idxs : List SymIdx} (hpushes : List.Forall₂ Pushes pushes idxs)
    (hactive : s.mode = .active) :
    ∃ t, Executes pushes s t ∧ t.mode = .active ∧ (t.w, t.cap) = idxs.foldl packOne (s.w, s.cap) := by
  induction hpushes generalizing s with
  | nil => exact ⟨s, .nil s, hactive, rfl⟩
  | @cons i idx is idxs hi _ ih =>
    obtain ⟨t, hexec, hmode, hpack⟩ := ih (s := packStep idx s) (by simpa using hactive)
    refine ⟨t, .cons (exec_push_of_active hi hactive) hexec, hmode, ?_⟩
    rw [hpack, List.foldl_cons, packOne_working]

/-- The commands of a run: START, the pushes, FINISH. -/
def runCommands (pushes : List Instr) : List Instr := .start :: pushes ++ [.finish]

theorem map_encode_runCommands (pushes : List Instr) :
    (runCommands pushes).map encode = encode .start :: pushes.map encode ++ [encode .finish] := by
  simp [runCommands]

/-- A run executes its pushes between `beginRun` and the effect of FINISH. -/
theorem executes_runCommands {pushes : List Instr} (hexec : Executes pushes (beginRun s) t)
    (hfinish : exec .finish t = .next u) : Executes (runCommands pushes) s u :=
  (Executes.cons execStart_eq hexec).concat hfinish

/-- START, the pushes and FINISH commit the Packed Stream of the symbols (R123). -/
theorem run_of_pushes {pushes : List Instr} {idxs : List SymIdx} (s : State) (hrst : ∀ p ∈ cycles, p.rst = false)
    (hwords : acceptedWords cycles = (runCommands pushes).map encode) (hpushes : List.Forall₂ Pushes pushes idxs) :
    ∃ t, Host.Core.run Sys2Proof.core cycles.length (drive cycles s) = .next t ∧
      t.r = (pack idxs).1 ∧ t.rValid = true ∧ t.rCap = (pack idxs).2 ∧ t.mode = .idle := by
  obtain ⟨t, hexec, hmode, hpack⟩ := executes_pushes hpushes (beginRun_mode s)
  obtain ⟨hw, hcap⟩ := Prod.mk.inj (hpack : (t.w, t.cap) = ((pack idxs).1, (pack idxs).2))
  obtain ⟨t', hrun, -, hr, hvalid, hrCap, hmode', -⟩ :=
    run_of_executes hrst hwords (executes_runCommands hexec (execFinish_of_active hmode)) (.refl s)
  exact ⟨t', hrun, hr.trans hw, hvalid, hrCap.trans hcap, hmode'⟩

/-- The words of pushes are those of a list of push commands. -/
theorem exists_pushes_of_words {words : List CmdWord} {idxs : List SymIdx}
    (h : List.Forall₂ (fun w i => w = encode (.pushi i) ∨ ∃ ch, symEncode ch = (true, i) ∧ w = encode (.pushc ch))
      words idxs) : ∃ pushes : List Instr, words = pushes.map encode ∧ List.Forall₂ Pushes pushes idxs := by
  induction h with
  | nil => exact ⟨[], rfl, .nil⟩
  | @cons w idx words idxs hw _ ih =>
    obtain ⟨pushes, rfl, hpushes⟩ := ih
    rcases hw with rfl | ⟨ch, hch, rfl⟩
    · exact ⟨.pushi idx :: pushes, rfl, .cons (.inl rfl) hpushes⟩
    · exact ⟨.pushc ch :: pushes, rfl, .cons (.inr ⟨ch, rfl, hch⟩) hpushes⟩

/-- Settles O36: the machine executes the accepted commands, and these commit the Packed Stream. -/
theorem runCommitsThePackedStream : Obligations.RunCommitsThePackedStream := by
  intro cycles words idxs s hrst hwords hsymbols
  obtain ⟨pushes, rfl, hpushes⟩ := exists_pushes_of_words hsymbols
  exact run_of_pushes s hrst (hwords.trans (map_encode_runCommands pushes).symm) hpushes

/-! ### A run with an invalid character -/

/-- The command is a push, of either operand form. -/
def IsPush (i : Instr) : Prop := (∃ ch, i = .pushc ch) ∨ ∃ idx, i = .pushi idx

/-- Pushes in an aborted run do nothing (R112, R113). -/
theorem executes_of_aborted (hpushes : ∀ i ∈ is, IsPush i) (h : s.mode = .aborted) : Executes is s s := by
  induction is with
  | nil => exact .nil s
  | cons i is ih =>
    obtain ⟨hi, his⟩ := List.forall_mem_cons.1 hpushes
    exact .cons (exec_push_of_aborted hi h) (ih his)

/-- A push in a run packs a symbol, or meets a character outside the Alphabet and aborts the run (R112, R113). -/
theorem exec_push_cases (hi : IsPush i) (h : s.mode = .active) :
    (∃ idx, exec i s = .next (packStep idx s) ∧ Pushes i idx) ∨
    (∃ ch, i = .pushc ch ∧ (symEncode ch).1 = false ∧ exec i s = .next (reportError .inv s)) := by
  rcases hi with ⟨ch, rfl⟩ | ⟨idx, rfl⟩
  · cases hch : (symEncode ch).1 with
    | true =>
      obtain ⟨idx, hidx⟩ := exists_symEncode_of_valid hch
      have hpush : Pushes (.pushc ch) idx := .inr ⟨ch, rfl, hidx⟩
      exact .inl ⟨idx, exec_push_of_active hpush h, hpush⟩
    | false => exact .inr ⟨ch, rfl, hch, execPushc_of_invalid hch h⟩
  · exact .inl ⟨idx, execPushi_of_active idx h, .inl rfl⟩

/-- Pushes in a run with an invalid character among them abort it and keep the result (R112, R161). -/
theorem executes_to_aborted (hpushes : ∀ i ∈ is, IsPush i) (hactive : s.mode = .active)
    (hinvalid : ∃ ch, Instr.pushc ch ∈ is ∧ (symEncode ch).1 = false) :
    ∃ t, Executes is s t ∧ SameResult s t ∧ t.inv = true ∧ t.mode = .aborted := by
  induction is generalizing s with
  | nil => simp at hinvalid
  | cons i is ih =>
    obtain ⟨hi, his⟩ := List.forall_mem_cons.1 hpushes
    rcases exec_push_cases hi hactive with ⟨idx, hexec, hpush⟩ | ⟨ch, rfl, _, hexec⟩
    · have htail : ∃ ch, Instr.pushc ch ∈ is ∧ (symEncode ch).1 = false := by
        obtain ⟨ch, hmem, hch⟩ := hinvalid
        refine ⟨ch, (List.mem_cons.1 hmem).resolve_left ?_, hch⟩
        rintro rfl
        rcases hpush with h | ⟨_, h, hvalid⟩ <;> cases h
        simp [hvalid] at hch
      obtain ⟨t, hrest, hresult, hinv, hmode⟩ := ih his (s := packStep idx s) (by simpa using hactive) htail
      exact ⟨t, .cons hexec hrest, by simpa [SameResult] using hresult, hinv, hmode⟩
    · exact ⟨_, .cons hexec (executes_of_aborted his rfl), ⟨rfl, rfl, rfl⟩, rfl, rfl⟩

/-- Settles O37: the pushes abort the run, and FINISH then only returns to IDLE. -/
theorem invalidCharacterKeepsThePreviousResult : Obligations.InvalidCharacterKeepsThePreviousResult := by
  intro cycles pushes s hrst hwords hpushes hinvalid
  obtain ⟨t, hexec, ⟨hr, hvalid, hcap⟩, hinv, hmode⟩ := executes_to_aborted hpushes (beginRun_mode s) hinvalid
  obtain ⟨t', hrun, -, hr', hvalid', hcap', hmode', hinv', -⟩ :=
    run_of_executes hrst (hwords.trans (map_encode_runCommands pushes).symm)
      (executes_runCommands hexec (execFinish_of_aborted hmode)) (.refl s)
  exact ⟨t', hrun, hr'.trans hr, hvalid'.trans hvalid, hcap'.trans hcap, hinv'.trans hinv, hmode'⟩

end Sys2Proof.Machine
end

section
/-! The run of a list of indices, one command a cycle: it commits their Packed Stream (R123), and so what a run commits
is read off `pack` (41_bit_packer.md R124 to R129, 42_canonicalizer.md R146). -/

namespace Sys2Proof.Machine

variable {idx : SymIdx} {idxs : List SymIdx} {word : Word}

/-! ### The run of the indices -/

theorem runWords_eq (idxs : List SymIdx) : runWords idxs = (runCommands (idxs.map .pushi)).map encode := by
  simp [runWords, runCommands]

/-- A run holds no NOP. -/
theorem nop_notMem_runCommands (idxs : List SymIdx) : Instr.nop ∉ runCommands (idxs.map .pushi) := by
  simp [runCommands]

theorem acceptedWords_offers (words : List CmdWord) :
    acceptedWords (offers words) = words.filter (· ≠ 0x0000) := by
  have haccepts (w : CmdWord) :
      acceptedWord { PortIn.quiet with cmdValid := true, cmdWord := w } = some w := rfl
  simp [acceptedWords, offers, List.filterMap_map, haccepts]

theorem acceptedWords_offers_runWords (idxs : List SymIdx) :
    acceptedWords (offers (runWords idxs)) = (runCommands (idxs.map .pushi)).map encode := by
  rw [acceptedWords_offers, runWords_eq, List.filter_eq_self]
  intro w hw
  obtain ⟨i, hi, rfl⟩ := List.mem_map.1 hw
  refine decide_eq_true fun hzero : encode i = encode .nop => nop_notMem_runCommands idxs ?_
  exact encode_injective hzero ▸ hi

theorem length_offers_runWords (idxs : List SymIdx) : (offers (runWords idxs)).length = idxs.length + 2 := by
  simp [offers, runWords]

theorem pushes_map_pushi (idxs : List SymIdx) : List.Forall₂ Pushes (idxs.map .pushi) idxs := by
  induction idxs with
  | nil => exact .nil
  | cons idx idxs ih => exact .cons (.inl rfl) ih

/-- The run of the indices commits their Packed Stream and drop flag, from any state. -/
theorem runOf_commits (idxs : List SymIdx) (s : State) :
    ∃ t, runOf idxs s = .next t ∧ t.r = (pack idxs).1 ∧ t.rCap = (pack idxs).2 := by
  have hrst : ∀ p ∈ offers (runWords idxs), p.rst = false := by
    simp [offers, PortIn.quiet]
  obtain ⟨t, hrun, hr, -, hcap, -⟩ :=
    run_of_pushes s hrst (acceptedWords_offers_runWords idxs) (pushes_map_pushi idxs)
  rw [length_offers_runWords] at hrun
  exact ⟨t, hrun, hr, hcap⟩

/-! ### Runs of no symbol, of one, and two equal ones -/

/-- Settles O41: `pack` of no symbols is the empty stream. -/
theorem emptyRunCommitsZero : Obligations.EmptyRunCommitsZero := by
  intro s
  obtain ⟨t, hrun, hr, -⟩ := runOf_commits [] s
  exact ⟨t, hrun, hr, hr⟩

theorem pack_singleton (idx : SymIdx) :
    (pack [idx]).1 = ⟨idx.setWidth 32 <<< (32 - width idx), BitVec.ofNat 6 (width idx), 0, 0⟩ := by
  have hw := width_bounds idx
  simp [pack, packOne, PackedStream.push?, PackedStream.pushPrimary, PackedStream.empty, placeSymbol, place,
    show ¬ 32 < width idx by omega]

/-- Settles O38: the one symbol is placed at cursor 0. -/
theorem singleSymbolRunIsLeftJustified : Obligations.SingleSymbolRunIsLeftJustified := by
  intro idx s
  obtain ⟨t, hrun, hr, -⟩ := runOf_commits [idx] s
  rw [pack_singleton] at hr
  refine ⟨t, hrun, fun hnarrow => ?_, fun hwide => ?_⟩
  · rw [hr, width_of_narrow hnarrow]; rfl
  · rw [hr, width_of_wide hwide]; rfl

/-- Settles O42: `pack` of both sequences, computed. -/
theorem packingIsNotInjective : Obligations.PackingIsNotInjective := by
  intro s
  have hleft : (pack [31, 31, 31, 31, 31, 17, 0]).1 = ⟨0xFFFFFFC4, 34, 0, 2⟩ := by decide
  have hright : (pack [31, 31, 31, 31, 31, 17, 4]).1 = ⟨0xFFFFFFC4, 34, 0, 2⟩ := by decide
  obtain ⟨t, hrun, hr, -⟩ := runOf_commits [31, 31, 31, 31, 31, 17, 0] s
  obtain ⟨u, hrun', hr', -⟩ := runOf_commits [31, 31, 31, 31, 31, 17, 4] s
  rw [hleft] at hr
  exact ⟨t, u, hrun, hrun', hr, by rw [hr, hr', hright]⟩

/-! ### Runs at and just above 32 bits (R126, R127) -/

theorem pack_concat_fst (idxs : List SymIdx) (idx : SymIdx) :
    (pack (idxs ++ [idx])).1 = ((pack idxs).1.push? idx).getD (pack idxs).1 := by
  rw [pack_concat, packOne]
  cases (pack idxs).1.push? idx <;> rfl

theorem pack_concat_of_primary (idx : SymIdx) (h : (pack idxs).1.pc.toNat < 32) :
    (pack (idxs ++ [idx])).1 = (pack idxs).1.pushPrimary idx := by
  simp [pack_concat_fst, PackedStream.push?, h]

theorem pack_concat_of_secondary (idx : SymIdx) (h : 32 ≤ (pack idxs).1.pc.toNat)
    (h' : (pack idxs).1.sc.toNat < 32) : (pack (idxs ++ [idx])).1 = (pack idxs).1.pushSecondary idx := by
  simp [pack_concat_fst, PackedStream.push?, h', show ¬ (pack idxs).1.pc.toNat < 32 by omega]

theorem counts_pack_of_lt (h : totalWidth idxs < 64) : (pack idxs).1.Counts (totalWidth idxs) :=
  counts_pack (pack_not_dropped h)

/-- Below 32 bits the primary cursor is the sum and the secondary is empty. -/
theorem pack_of_lt_32 (h : totalWidth idxs < 32) :
    (pack idxs).1.pc.toNat = totalWidth idxs ∧ (pack idxs).1.s = 0 := by
  obtain ⟨hpc, -⟩ := (counts_pack_of_lt (show totalWidth idxs < 64 by omega)).primary h
  exact ⟨hpc, ((wellPacked_pack idxs).secondary_unused (by omega)).1⟩

/-- At 32 bits exactly the primary is full and nothing has spilled. -/
theorem pack_of_eq_32 (h : totalWidth idxs = 32) :
    (pack idxs).1.pc = 32 ∧ (pack idxs).1.s = 0 ∧ (pack idxs).1.sc = 0 := by
  have hwell := wellPacked_pack idxs
  obtain ⟨hpc, -, hsc⟩ := (counts_pack_of_lt (show totalWidth idxs < 64 by omega)).secondary h.ge
  have hspill := hwell.spill_counted
  have hsc0 : (pack idxs).1.sc = 0 := BitVec.eq_of_toNat_eq (by simp; omega)
  exact ⟨BitVec.eq_of_toNat_eq (by simp; omega), hwell.secondary_zero hsc0, hsc0⟩

/-- Settles O39: exact fill by the cursors' count; eight narrow symbols by their width; eight `T` computed. -/
theorem exactFillDoesNotSpill : Obligations.ExactFillDoesNotSpill := by
  refine ⟨fun idxs s h => ?_, fun idxs hnarrow => ?_, fun s => ?_⟩
  · obtain ⟨t, hrun, hr, hcap⟩ := runOf_commits idxs s
    obtain ⟨hpc, hs, hsc⟩ := pack_of_eq_32 h
    refine ⟨t, hrun, ?_⟩
    rw [hr, hcap]
    exact ⟨hpc, hs, hsc, pack_not_dropped (by omega)⟩
  · rw [totalWidth_of_narrow hnarrow]; omega
  · obtain ⟨t, hrun, hr, -⟩ := runOf_commits (List.replicate 8 15) s
    exact ⟨t, hrun, by rw [hr]; decide⟩

/-- A spill into an empty secondary: its top bits are the low bits of the symbol (R104). -/
theorem getLsbD_spillInto_zero {ob j : Nat} (idx : SymIdx) (hob : ob ≤ 32) (hj : j < ob) :
    (spillInto 0 ob idx).getLsbD (32 - ob + j) = idx.getLsbD j := by
  rw [getLsbD_spillInto _ _ _ _ hob (by omega)]
  simp

/-- The last symbol of a run of 33 to 36 bits: its low bits are the top bits of the secondary, whether it spills or the
primary was full before it. -/
theorem pack_overflow_secondary {before : List SymIdx} {last : SymIdx} {j : Nat} (hbefore : totalWidth before ≤ 32)
    (hover : 33 ≤ totalWidth (before ++ [last])) (hj : j < totalWidth (before ++ [last]) - 32) :
    (pack (before ++ [last])).1.s.getLsbD (32 - (totalWidth (before ++ [last]) - 32) + j) = last.getLsbD j := by
  have hw := width_bounds last
  rw [totalWidth_concat] at hover hj ⊢
  rcases hbefore.lt_or_eq with hlt | heq
  · obtain ⟨hpc, hs⟩ := pack_of_lt_32 hlt
    rw [pack_concat_of_primary last (by omega),
      (pushPrimary_secondary_of_lt (pack before).1 last (by omega) (by omega)).1, hpc, hs]
    exact getLsbD_spillInto_zero last (by omega) hj
  · obtain ⟨hpc, hs, hsc⟩ := pack_of_eq_32 heq
    rw [pack_concat_of_secondary last (by simp [hpc]) (by simp [hsc]), pushSecondary_s, hs, hsc, heq,
      getLsbD_placeSymbol _ _ _ _ (by omega)]
    simp [place, show 32 + width last - 32 = width last by omega]

/-- The primary cursor of a run of 33 to 36 bits. -/
theorem pack_overflow_pc {before : List SymIdx} {last : SymIdx} (hbefore : totalWidth before ≤ 32) :
    (pack (before ++ [last])).1.pc.toNat =
      if totalWidth before = 32 then 32 else totalWidth (before ++ [last]) := by
  rcases hbefore.lt_or_eq with hlt | heq
  · obtain ⟨hpc, -⟩ := pack_of_lt_32 hlt
    rw [if_neg hlt.ne, pack_concat_of_primary last (by omega), pushPrimary_pc _ last (by omega), hpc,
      totalWidth_concat]
  · obtain ⟨hpc, -, hsc⟩ := pack_of_eq_32 heq
    rw [if_pos heq, pack_concat_of_secondary last (by simp [hpc]) (by simp [hsc]), pushSecondary_pc, hpc]
    rfl

/-- Settles O40: the secondary cursor counts the bits beyond 32; the last symbol spills, or meets a full primary. -/
theorem overflowingRunEndsInTheSecondary : Obligations.OverflowingRunEndsInTheSecondary := by
  intro before last s hbefore hover hle
  obtain ⟨t, hrun, hr, -⟩ := runOf_commits (before ++ [last]) s
  have hcount := (counts_pack_of_lt (idxs := before ++ [last]) (by omega)).secondary (by omega)
  refine ⟨t, hrun, ?_⟩
  rw [hr]
  exact ⟨by omega, fun j hj => pack_overflow_secondary hbefore hover hj, pack_overflow_pc hbefore⟩

/-! ### Narrow symbols and the nibbles of the primary (R146) -/

/-- A narrow symbol leaves the nibbles before its own. -/
theorem nibble_placeSymbol_of_lt {k n : Nat} (hw : width idx = 4) (hk : k < n) (hn : n < 8) :
    nibble (placeSymbol word (4 * n) idx) k = nibble word k := by
  refine BitVec.eq_of_getLsbD_eq fun b hb => ?_
  rw [getLsbD_nibble _ _ hb, getLsbD_nibble _ _ hb, placeSymbol_written idx word (by omega) (by omega)]

/-- A narrow symbol placed on free bits is its nibble. -/
theorem nibble_placeSymbol_self {n : Nat} (hw : width idx = 4) (hn : n < 8)
    (hfree : ∀ j, j < 32 - 4 * n → word.getLsbD j = false) :
    nibble (placeSymbol word (4 * n) idx) n = idx.setWidth 4 := by
  refine BitVec.eq_of_getLsbD_eq fun b hb => ?_
  have hplace : place (4 * n) (width idx) = 28 - 4 * n := by unfold place; omega
  rw [getLsbD_nibble _ _ hb, getLsbD_placeSymbol _ _ _ _ (by omega), hfree _ (by omega), hplace,
    BitVec.getLsbD_setWidth]
  simp [hb]

/-- Up to eight narrow symbols stand in the primary as its nibbles. -/
theorem nibble_pack_of_narrow (hnarrow : ∀ i ∈ idxs, i.toNat < 16) (hlen : idxs.length ≤ 8) {k : Nat}
    (hk : idxs[k]? = some idx) : nibble (pack idxs).1.p k = idx.setWidth 4 := by
  induction idxs using List.reverseRecOn with
  | nil => simp at hk
  | append_singleton idxs last ih =>
    rw [List.length_append, List.length_singleton] at hlen
    have hinit : ∀ i ∈ idxs, i.toNat < 16 := fun i hi => hnarrow i (List.mem_append_left _ hi)
    have hw : width last = 4 := width_of_narrow (hnarrow last (by simp))
    have htotal := totalWidth_of_narrow hinit
    obtain ⟨hpc, -⟩ := pack_of_lt_32 (idxs := idxs) (by omega)
    have hpc' : (pack idxs).1.pc.toNat = 4 * idxs.length := by omega
    have hfree := (wellPacked_pack idxs).primary_free
    rw [hpc'] at hfree
    rw [pack_concat_of_primary last (by omega), pushPrimary_p, hpc']
    rcases lt_trichotomy k idxs.length with hlt | rfl | hgt
    · rw [List.getElem?_append_left hlt] at hk
      rw [nibble_placeSymbol_of_lt hw hlt (by omega), ih hinit (by omega) hk]
    · obtain rfl : last = idx := by simpa using hk
      exact nibble_placeSymbol_self hw (by omega) hfree
    · rw [List.getElem?_eq_none (by simp; omega)] at hk
      cases hk

/-- Once the primary is saturated further symbols leave it (R103). -/
theorem pack_append_primary (h : 32 ≤ (pack idxs).1.pc.toNat) (more : List SymIdx) :
    (pack (idxs ++ more)).1.p = (pack idxs).1.p ∧ (pack (idxs ++ more)).1.pc = (pack idxs).1.pc := by
  induction more using List.reverseRecOn with
  | nil => simp
  | append_singleton more last ih =>
    obtain ⟨hp, hpc⟩ := ih
    rw [← List.append_assoc, pack_concat_fst, ← hp, ← hpc]
    rw [← hpc] at h
    rcases push?_cases (pack (idxs ++ more)).1 last with ⟨hlt, _⟩ | ⟨_, _, hpush⟩ | ⟨_, hpush⟩
    · omega
    · rw [hpush]; exact ⟨rfl, rfl⟩
    · rw [hpush]; exact ⟨rfl, rfl⟩

theorem setWidth_nibble_of_narrow (h : idx.toNat < 16) :
    (idx.setWidth 4).toNat = idx.toNat ∧ (idx.setWidth 4).setWidth 5 = idx := by
  revert idx; decide

/-- No nibble names a wide symbol (R141). -/
theorem canonChar_ne_of_wide (x : Word) (k : Nat) (h : 16 ≤ idx.toNat) : canonChar x k ≠ symDecode idx := fun heq => by
  obtain rfl : (nibble x k).setWidth 5 = idx := symDecode_injective heq
  have := (nibble x k).isLt
  rw [BitVec.toNat_setWidth] at h
  omega

/-- Settles O43: the nibbles of the primary are the first eight symbols when these are narrow, and no nibble is a wide
symbol. -/
theorem narrowSymbolsComeBackCanonical : Obligations.NarrowSymbolsComeBackCanonical := by
  simp only [Obligations.NarrowSymbolsComeBackCanonical, outputs_resCanon]
  refine ⟨fun eight rest s hlen hnarrow => ?_, fun idxs s => ?_⟩
  · have hpc : (pack eight).1.pc = 32 := (pack_of_eq_32 (by rw [totalWidth_of_narrow hnarrow, hlen])).1
    obtain ⟨t, hrun, hr, -⟩ := runOf_commits (eight ++ rest) s
    refine ⟨hpc, t, hrun, fun k i hk => ?_⟩
    have hk8 : k < 8 := hlen ▸ (List.getElem?_eq_some_iff.1 hk).1
    have hnibble := nibble_pack_of_narrow hnarrow hlen.le hk
    obtain ⟨hvalue, hsymbol⟩ := setWidth_nibble_of_narrow (hnarrow i (List.mem_of_getElem? hk))
    rw [hr, (pack_append_primary (by simp [hpc]) rest).1, canonOut_lane_nibble _ hk8, canonChar, hnibble, hsymbol]
    exact ⟨hvalue, rfl⟩
  · obtain ⟨t, hrun, -⟩ := runOf_commits idxs s
    refine ⟨t, hrun, fun k i hk _ hwide => ?_⟩
    rw [canonOut_lane_nibble _ hk]
    exact canonChar_ne_of_wide t.r.p k hwide

end Sys2Proof.Machine
end

section
/-! START forgets the past (10_state.md R31, 41_bit_packer.md R111): no command and no edge reads the result
registers, and START rewrites the others. -/

namespace Sys2Proof.Machine

variable {s t u : State} {i : Instr}

/-- The state with another result: R_*, R_VALID and R_CAP. -/
def State.withResult (s : State) (r : PackedStream) (rValid rCap : Bool) : State :=
  { s with r := r, rValid := rValid, rCap := rCap }

/-- The states differ at most in the result registers. -/
def SameButResult (s u : State) : Prop := ∃ r rValid rCap, u = s.withResult r rValid rCap

theorem SameButResult.mode_eq (h : SameButResult s u) : u.mode = s.mode := by
  obtain ⟨_, _, _, rfl⟩ := h; rfl

theorem SameButResult.pins_eq (h : SameButResult s u) : u.pins = s.pins := by
  obtain ⟨_, _, _, rfl⟩ := h; rfl

/-! ### The updates of the state, on states that differ in the result -/

theorem SameButResult.nextCycle (h : SameButResult s u) : SameButResult (nextCycle s) (nextCycle u) := by
  obtain ⟨r, rValid, rCap, rfl⟩ := h
  refine ⟨r, rValid, rCap, ?_⟩
  cases hscript : s.script <;> simp [Machine.nextCycle, State.withResult, hscript]

theorem SameButResult.reportError (h : SameButResult s u) (e : ErrorCause) :
    SameButResult (reportError e s) (reportError e u) := by
  obtain ⟨r, rValid, rCap, rfl⟩ := h
  exact ⟨r, rValid, rCap, by cases e <;> rfl⟩

theorem SameButResult.packStep (h : SameButResult s u) (idx : SymIdx) :
    SameButResult (packStep idx s) (packStep idx u) := by
  obtain ⟨r, rValid, rCap, rfl⟩ := h
  refine ⟨r, rValid, rCap, ?_⟩
  rcases packStep_cases idx s with ⟨k, hpush, hstep⟩ | ⟨hfull, hstep⟩ <;> rw [hstep]
  · exact packStep_of_some idx hpush
  · exact packStep_of_full idx hfull

theorem SameButResult.resetRegisters (h : SameButResult s u) :
    SameButResult (resetRegisters s) (resetRegisters u) := by
  obtain ⟨_, _, _, rfl⟩ := h
  exact ⟨.empty, false, false, rfl⟩

theorem SameButResult.beginRun (h : SameButResult s u) : SameButResult (beginRun s) (beginRun u) := by
  obtain ⟨r, rValid, rCap, rfl⟩ := h
  exact ⟨r, rValid, rCap, rfl⟩

theorem SameButResult.dropRun (h : SameButResult s u) : SameButResult (dropRun s) (dropRun u) := by
  obtain ⟨r, rValid, rCap, rfl⟩ := h
  exact ⟨r, rValid, rCap, rfl⟩

theorem SameButResult.commitRun (h : SameButResult s u) : SameButResult (commitRun s) (commitRun u) := by
  obtain ⟨_, _, _, rfl⟩ := h
  exact ⟨s.w, true, s.cap, rfl⟩

/-! ### Commands, edges and runs -/

/-- PUSHI reads no result register (R113). -/
theorem SameButResult.execPushi {idx : SymIdx} (hs : SameButResult s u) (h : exec (.pushi idx) s = .next t) :
    ∃ v, exec (.pushi idx) u = .next v ∧ SameButResult t v := by
  rcases execPushi_cases h with ⟨hmode, rfl⟩ | ⟨hmode, rfl⟩ | ⟨hmode, rfl⟩
  · exact ⟨_, execPushi_of_idle idx (hs.mode_eq.trans hmode), hs.reportError .seq⟩
  · exact ⟨_, execPushi_of_aborted idx (hs.mode_eq.trans hmode), hs⟩
  · exact ⟨_, execPushi_of_active idx (hs.mode_eq.trans hmode), hs.packStep idx⟩

/-- No command reads the result registers. -/
theorem SameButResult.exec (hs : SameButResult s u) (h : exec i s = .next t) :
    ∃ v, exec i u = .next v ∧ SameButResult t v := by
  cases i with
  | nop => cases h; exact ⟨_, execNop_eq, hs⟩
  | start => cases h; exact ⟨_, execStart_eq, hs.beginRun⟩
  | pushi idx => exact hs.execPushi h
  | pushc ch =>
    rcases execPushc_cases h with ⟨hmode, rfl⟩ | ⟨hmode, rfl⟩ | ⟨hmode, hch, rfl⟩ | ⟨idx, _, hch, _⟩
    · exact ⟨_, execPushc_of_idle ch (hs.mode_eq.trans hmode), hs.reportError .seq⟩
    · exact ⟨_, execPushc_of_aborted ch (hs.mode_eq.trans hmode), hs⟩
    · exact ⟨_, execPushc_of_invalid (charOperand_eq_none_iff.1 hch) (hs.mode_eq.trans hmode), hs.reportError .inv⟩
    · have hpushi := execPushc_eq_execPushi (charOperand_eq_some_iff.1 hch)
      rw [hpushi] at h ⊢
      exact hs.execPushi h
  | finish =>
    rcases execFinish_cases h with ⟨hmode, rfl⟩ | ⟨hmode, rfl⟩ | ⟨hmode, rfl⟩
    · exact ⟨_, execFinish_of_idle (hs.mode_eq.trans hmode), hs.reportError .seq⟩
    · exact ⟨_, execFinish_of_aborted (hs.mode_eq.trans hmode), hs.dropRun⟩
    · exact ⟨_, execFinish_of_active (hs.mode_eq.trans hmode), hs.commitRun⟩

/-- No edge reads the result registers. -/
theorem SameButResult.step (hs : SameButResult s u) (h : step s = .next t) :
    ∃ v, step u = .next v ∧ SameButResult t v := by
  have hpins : s.pins = u.pins := hs.pins_eq.symm
  rcases step_cases h with ⟨hrst, rfl⟩ | ⟨hrst, hvalid, rfl⟩ | ⟨w, i, ho, hd, hexec⟩ | ⟨w, e, ho, hd, rfl⟩
  · exact ⟨_, step_of_rst (hpins ▸ hrst), hs.nextCycle.resetRegisters⟩
  · exact ⟨_, step_of_idle (hpins ▸ hrst) (hpins ▸ hvalid), hs.nextCycle⟩
  · rw [step_of_offers_command (hpins ▸ ho) hd]
    exact hs.nextCycle.exec hexec
  · exact ⟨_, step_of_offers_illegal (hpins ▸ ho) hd, hs.nextCycle.reportError .ill⟩

/-- An edge keeps MODE legal (R25). -/
theorem Edge.mode_ne_reserved (hedge : Edge s t) (h : s.mode ≠ .reserved) : t.mode ≠ .reserved := by
  cases hedge <;> simp [h]

/-- In a legal MODE two states that differ in the result run in lockstep. -/
theorem SameButResult.run (n : Nat) (hs : SameButResult s u) (h : s.mode ≠ .reserved) :
    ∃ t v, Host.Core.run Sys2Proof.core n s = .next t ∧ Host.Core.run Sys2Proof.core n u = .next v ∧
      SameButResult t v := by
  induction n generalizing s u with
  | zero => exact ⟨s, u, rfl, rfl, hs⟩
  | succ n ih =>
    obtain ⟨t, hstep⟩ := step_completes h
    obtain ⟨v, hstep', hsame⟩ := hs.step hstep
    rw [run_succ_of_step hstep, run_succ_of_step hstep']
    exact ih hsame ((edge_of_step hstep).mode_ne_reserved h)

/-- The effect of START on the past: only the result survives it (R111). -/
theorem sameButResult_of_start (p : PortIn) (cycles : List PortIn) (s u : State) :
    SameButResult (beginRun (nextCycle (drive (p :: cycles) s))) (beginRun (nextCycle (drive (p :: cycles) u))) := by
  refine ⟨u.r, u.rValid, u.rCap, ?_⟩
  cases cycles <;> rfl

/-- Settles O44: after START the two states differ in the result only, and no edge reads it. -/
theorem startForgetsThePast : Obligations.StartForgetsThePast := by
  intro first cycles s u hoffers
  have hstart (s : State) :
      step (drive (first :: cycles) s) = .next (beginRun (nextCycle (drive (first :: cycles) s))) :=
    step_of_offers_start hoffers
  obtain ⟨t, v, hrun, hrun', r, rValid, rCap, rfl⟩ :=
    (sameButResult_of_start first cycles s u).run cycles.length (by simp)
  rw [run_succ_of_step (hstart s), run_succ_of_step (hstart u)]
  exact ⟨t, _, hrun, hrun', rfl, rfl, fun e => by cases e <;> rfl⟩

end Sys2Proof.Machine
end
